-- ==== Sys2Proof/Word.lean ====
section
/-! DEFINITION. The data types of AEADC: bytes, words, byte sequences and 16-byte blocks (00_scope.md R10-R12). -/

namespace Sys2Proof

/-- A byte is 8 bits (R11). -/
abbrev Byte := BitVec 8

/-- A register value is a 32-bit unsigned word (R10). -/
abbrev Word := BitVec 32

/-- A finite sequence of bytes (R11). -/
abbrev Bytes := List Byte

/-- An AES word: a sequence of 4 bytes, and one column of the AES state (40_aes_gcm.md R104, R106). -/
structure Col where
  b0 : Byte
  b1 : Byte
  b2 : Byte
  b3 : Byte
  deriving DecidableEq, Repr

/-- A 16-byte block, as the four columns of the AES state: byte `r + 4c` of the block is byte `r` of
column `c` (40_aes_gcm.md R106). -/
structure Block where
  c0 : Col
  c1 : Col
  c2 : Col
  c3 : Col
  deriving DecidableEq, Repr

end Sys2Proof
end

