-- ==== Sys2Proof/Syntax.lean ====
section
/-! DEFINITION. The commands of AEADC, one constructor per row of the opcode table (30_encoding.md R80, R81). -/

namespace Sys2Proof

/-- A command: what the 32-bit word written to CMD selects (30_encoding.md R81). No command has an
operand field: operands are read from the state at completion (R85). -/
inductive Instr where
  /-- ENCRYPT, word 0x00000001 (43_commands.md R167). -/
  | encrypt
  /-- DECRYPT, word 0x00000002 (43_commands.md R168). -/
  | decrypt
  /-- WIPE, word 0x00000003 (43_commands.md R170). -/
  | wipe
  /-- ILLEGAL, any other word (43_commands.md R171); it carries the word. -/
  | illegal (w : Word)
  deriving DecidableEq, Repr

end Sys2Proof
end

