-- ==== Sys2Proof/WellFormed.lean ====
section
/-! DEFINITION. Which terms of Instr are commands: an ILLEGAL carries none of the three legal words (30_encoding.md R81, R82). -/

namespace Sys2Proof

/-- ILLEGAL is "any value not matched by the rows above" (opcode_table.json; R81). -/
def Instr.wellFormed : Instr → Bool
  | .encrypt => true
  | .decrypt => true
  | .wipe => true
  | .illegal w => w != 0x00000001 && w != 0x00000002 && w != 0x00000003

end Sys2Proof
end

