-- ==== Sys2Proof/Decode.lean ====
section
/-! DEFINITION. The command decoder of 30_encoding.md R81, total on all 2^32 words, and its encoder. -/

namespace Sys2Proof

/-- The OP field of a command word, bits [3:0] (R80). -/
def opField (w : Word) : BitVec 4 := w.extractLsb' 0 4

/-- The RSVD field of a command word, bits [31:4] (R80). -/
def rsvdField (w : Word) : BitVec 28 := w.extractLsb' 4 28

/-- `Decode` of R81: the word is compared on all 32 bits; any other word is ILLEGAL, by name (R82). -/
def decode (w : Word) : Instr :=
  if w = 0x00000001 then .encrypt
  else if w = 0x00000002 then .decrypt
  else if w = 0x00000003 then .wipe
  else .illegal w

/-- The word of a command (R81). -/
def encode : Instr → Word
  | .encrypt => 0x00000001
  | .decrypt => 0x00000002
  | .wipe => 0x00000003
  | .illegal w => w

/-- The decoder on a word of the opcode table. Every command is exactly one 32-bit CMD write (R84), so an
instruction of more than 32 bits is none of AEADC's (log 11). -/
def decodeTableWord (nbits w : Nat) : Option Instr :=
  if nbits ≤ 32 then some (decode (BitVec.ofNat 32 (w % 2 ^ nbits))) else none

end Sys2Proof
end

