-- ==== Sys2Proof/Machine/Base64.lean ====
section
/-! DEFINITION. The base64 encoder and the strict canonical decoder (41_base64.md R140-R144). -/

namespace Sys2Proof.Machine

/-- `b64len(n) = 4 * ceil(n / 3)` (00_scope.md R13, 41_base64.md R142). -/
def b64len (n : Nat) : Nat := 4 * ((n + 2) / 3)

/-- The pad character '=' (R140). -/
abbrev padChar : Byte := 0x3D

/-- The alphabet: the ASCII character of a value (R140). -/
def b64char (v : BitVec 6) : Byte :=
  if v.toNat < 26 then BitVec.ofNat 8 (0x41 + v.toNat)
  else if v.toNat < 52 then BitVec.ofNat 8 (0x61 + (v.toNat - 26))
  else if v.toNat < 62 then BitVec.ofNat 8 (0x30 + (v.toNat - 52))
  else if v.toNat = 62 then 0x2B
  else 0x2F

/-- `val(c)`, the inverse map, defined on exactly the 64 codes of the alphabet (R140). -/
def b64val (c : Byte) : Option (BitVec 6) :=
  if 0x41 ≤ c.toNat ∧ c.toNat ≤ 0x5A then some (BitVec.ofNat 6 (c.toNat - 0x41))
  else if 0x61 ≤ c.toNat ∧ c.toNat ≤ 0x7A then some (BitVec.ofNat 6 (c.toNat - 0x61 + 26))
  else if 0x30 ≤ c.toNat ∧ c.toNat ≤ 0x39 then some (BitVec.ofNat 6 (c.toNat - 0x30 + 52))
  else if c = 0x2B then some 62
  else if c = 0x2F then some 63
  else none

/-- Is the byte in the alphabet (R140)? -/
def inAlphabet (c : Byte) : Bool := (b64val c).isSome

/-- The value of a character; 0 for one outside the alphabet, which no valid text asks for. -/
def b64digit (c : Byte) : BitVec 6 := (b64val c).getD 0

/-- Characters `c0` to `c3` of the 24-bit group of three bytes (R141). -/
def b64chars (x y z : Byte) : Byte × Byte × Byte × Byte :=
  let v : BitVec 24 := x ++ y ++ z
  (b64char (v.extractLsb' 18 6), b64char (v.extractLsb' 12 6),
   b64char (v.extractLsb' 6 6), b64char (v.extractLsb' 0 6))

/-- `b64enc(B)` (R141): a last group of 2 or 1 bytes is zero-padded and ends in one or two '='. -/
def b64enc : Bytes → Bytes
  | [] => []
  | [x] =>
    let c := b64chars x 0 0
    [c.1, c.2.1, padChar, padChar]
  | [x, y] =>
    let c := b64chars x y 0
    [c.1, c.2.1, c.2.2.1, padChar]
  | x :: y :: z :: rest =>
    let c := b64chars x y z
    c.1 :: c.2.1 :: c.2.2.1 :: c.2.2.2 :: b64enc rest

/-- Clauses 3 to 5 of R143, on the last three bytes of a text of at least 4. -/
def b64tailValid (x y z : Byte) : Bool :=
  if y = padChar then z = padChar && (b64digit x).toNat % 16 == 0
  else if z = padChar then inAlphabet y && (b64digit y).toNat % 4 == 0
  else inAlphabet y && inAlphabet z

/-- A text is valid (R143): clause 1, clause 2, then clauses 3 to 5 on the last three bytes. -/
def b64valid (s : Bytes) : Bool :=
  s.length % 4 == 0 && (s.take (s.length - 2)).all inAlphabet &&
    (s.length == 0 ||
      b64tailValid (s.getD (s.length - 3) 0) (s.getD (s.length - 2) 0) (s.getD (s.length - 1) 0))

/-- The three bytes of the 24-bit value of four digits, big-endian (R144). -/
def b64bytes (a b c d : BitVec 6) : Bytes :=
  let v : BitVec 24 := a ++ b ++ c ++ d
  [v.extractLsb' 16 8, v.extractLsb' 8 8, v.extractLsb' 0 8]

/-- How many '=' end the last quantum (R144). -/
def npad (c2 c3 : Byte) : Nat :=
  if c3 = padChar then (if c2 = padChar then 2 else 1) else 0

/-- The loop of `b64dec` over the quanta of a valid text (R144). -/
def b64quanta : Bytes → Bytes
  | [c0, c1, c2, c3] =>
    (b64bytes (b64digit c0) (b64digit c1) (b64digit c2) (b64digit c3)).take (3 - npad c2 c3)
  | c0 :: c1 :: c2 :: c3 :: rest =>
    b64bytes (b64digit c0) (b64digit c1) (b64digit c2) (b64digit c3) ++ b64quanta rest
  | _ => []

/-- `b64dec(s)` (R144); `none` is `Invalid`. -/
def b64dec (s : Bytes) : Option Bytes := if b64valid s then some (b64quanta s) else none

end Sys2Proof.Machine
end

