-- ==== Sys2Proof/Config.lean ====
section
/-! DEFINITION. What an implementation fixes: the parameters of 00_scope.md R8 and the register offsets of 10_state.md R24. -/

namespace Sys2Proof

/-- The OPEN parameters on which a rule depends: the buffer capacity (R8, D7) and the system address of
offset 0 (20_memory.md R60). No step changes them. -/
structure Config where
  bufSize : Nat
  baseAddr : Nat
  deriving DecidableEq, Repr

namespace Config

/-- The constraint on BUF_SIZE: a multiple of 4 with 60 <= BUF_SIZE <= 65536 (R8). -/
abbrev Legal (c : Config) : Prop := c.bufSize % 4 = 0 ∧ 60 ≤ c.bufSize ∧ c.bufSize ≤ 65536

/-- KEY_BYTES (R8). -/
abbrev keyBytes : Nat := 32

/-- SALT_BYTES (R8). -/
abbrev saltBytes : Nat := 16

/-- IV_BYTES (R8). -/
abbrev ivBytes : Nat := 12

/-- TAG_BYTES (R8). -/
abbrev tagBytes : Nat := 16

/-- FRAME_OVERHEAD = 44 = 16 + 12 + 16 (R8). -/
abbrev frameOverhead : Nat := 44

/-- DRAW_BYTES = 28 = SALT_BYTES + IV_BYTES (R8). -/
abbrev drawBytes : Nat := 28

/-- ID_VALUE, ASCII "AEAD" (10_state.md R26). -/
abbrev idValue : Word := 0x41454144

/-- The size of the aperture in bytes (20_memory.md R60). -/
abbrev aperture : Nat := 0x30000

/-! The offsets of 10_state.md R24. -/

abbrev offId : Nat := 0x000
abbrev offCaps : Nat := 0x004
abbrev offCtrl : Nat := 0x008
abbrev offStatus : Nat := 0x00C
abbrev offCmd : Nat := 0x010
abbrev offKeyLen : Nat := 0x014
abbrev offInLen : Nat := 0x018
abbrev offOutLen : Nat := 0x01C
abbrev offKey : Nat := 0x100
abbrev offKeyEnd : Nat := 0x120
abbrev offIn : Nat := 0x10000
abbrev offOut : Nat := 0x20000

/-- DESIGN CHOICE (log 18; unsafe): what a host takes as the data of a read outside the aperture, where the
spec is silent (20_memory.md R60, R62). A free value: it has no body, and nothing constrains it. -/
opaque outsideData : Word

/-- DESIGN CHOICE (log 1, log 2; unsafe): the parameters `State.reset` names. BUF_SIZE is OPEN; 4096 is
the example value of the spec's test vectors. BASE_ADDR is OPEN. Every statement about the machine is
made for every configuration. -/
def atReset : Config := ⟨4096, 0⟩

end Config

end Sys2Proof
end

