-- ==== Sys2Proof/Machine/Aes.lean ====
section
/-! DEFINITION. The AES-256 forward cipher (40_aes_gcm.md R100-R109). -/

namespace Sys2Proof.Machine

/-- Multiplication by x in GF(2^8) (R100). -/
def xtime (a : Byte) : Byte := a <<< 1 ^^^ (if a.getLsbD 7 then 0x1B else 0x00)

/-- The XOR of `xtime^i(a)` over the bits set among the lowest `n` bits of `b` (R100). -/
def gmulBits : Nat → Byte → Byte → Byte
  | 0, _, _ => 0
  | n + 1, a, b => (if b.getLsbD 0 then a else 0) ^^^ gmulBits n (xtime a) (b >>> 1)

/-- The product modulo x^8 + x^4 + x^3 + x + 1 (R100). -/
def gmul (a b : Byte) : Byte := gmulBits 8 a b

/-- The multiplicative inverse, with 0 mapped to 0 (R101), as the power `a^254`. -/
def gf8Inverse (a : Byte) : Byte :=
  let a2 := gmul a a
  let a4 := gmul a2 a2
  let a8 := gmul a4 a4
  let a16 := gmul a8 a8
  let a32 := gmul a16 a16
  let a64 := gmul a32 a32
  let a128 := gmul a64 a64
  gmul a2 (gmul a4 (gmul a8 (gmul a16 (gmul a32 (gmul a64 a128)))))

/-- The affine map of R101: bit `i` is `b[i] ^ b[i+4] ^ b[i+5] ^ b[i+6] ^ b[i+7] ^ c[i]`, indices modulo 8. -/
def affine (b : Byte) : Byte :=
  b ^^^ b.rotateRight 4 ^^^ b.rotateRight 5 ^^^ b.rotateRight 6 ^^^ b.rotateRight 7 ^^^ 0x63

/-- The S-box by its formula (R101). -/
def sboxFormula (a : Byte) : Byte := affine (gf8Inverse a)

/-- The upper half of the table of R102, a row for each high nibble. -/
def sboxRowsLow : List (List Byte) := [
  [0x63, 0x7c, 0x77, 0x7b, 0xf2, 0x6b, 0x6f, 0xc5, 0x30, 0x01, 0x67, 0x2b, 0xfe, 0xd7, 0xab, 0x76],
  [0xca, 0x82, 0xc9, 0x7d, 0xfa, 0x59, 0x47, 0xf0, 0xad, 0xd4, 0xa2, 0xaf, 0x9c, 0xa4, 0x72, 0xc0],
  [0xb7, 0xfd, 0x93, 0x26, 0x36, 0x3f, 0xf7, 0xcc, 0x34, 0xa5, 0xe5, 0xf1, 0x71, 0xd8, 0x31, 0x15],
  [0x04, 0xc7, 0x23, 0xc3, 0x18, 0x96, 0x05, 0x9a, 0x07, 0x12, 0x80, 0xe2, 0xeb, 0x27, 0xb2, 0x75],
  [0x09, 0x83, 0x2c, 0x1a, 0x1b, 0x6e, 0x5a, 0xa0, 0x52, 0x3b, 0xd6, 0xb3, 0x29, 0xe3, 0x2f, 0x84],
  [0x53, 0xd1, 0x00, 0xed, 0x20, 0xfc, 0xb1, 0x5b, 0x6a, 0xcb, 0xbe, 0x39, 0x4a, 0x4c, 0x58, 0xcf],
  [0xd0, 0xef, 0xaa, 0xfb, 0x43, 0x4d, 0x33, 0x85, 0x45, 0xf9, 0x02, 0x7f, 0x50, 0x3c, 0x9f, 0xa8],
  [0x51, 0xa3, 0x40, 0x8f, 0x92, 0x9d, 0x38, 0xf5, 0xbc, 0xb6, 0xda, 0x21, 0x10, 0xff, 0xf3, 0xd2]]

/-- The lower half of the table of R102. -/
def sboxRowsHigh : List (List Byte) := [
  [0xcd, 0x0c, 0x13, 0xec, 0x5f, 0x97, 0x44, 0x17, 0xc4, 0xa7, 0x7e, 0x3d, 0x64, 0x5d, 0x19, 0x73],
  [0x60, 0x81, 0x4f, 0xdc, 0x22, 0x2a, 0x90, 0x88, 0x46, 0xee, 0xb8, 0x14, 0xde, 0x5e, 0x0b, 0xdb],
  [0xe0, 0x32, 0x3a, 0x0a, 0x49, 0x06, 0x24, 0x5c, 0xc2, 0xd3, 0xac, 0x62, 0x91, 0x95, 0xe4, 0x79],
  [0xe7, 0xc8, 0x37, 0x6d, 0x8d, 0xd5, 0x4e, 0xa9, 0x6c, 0x56, 0xf4, 0xea, 0x65, 0x7a, 0xae, 0x08],
  [0xba, 0x78, 0x25, 0x2e, 0x1c, 0xa6, 0xb4, 0xc6, 0xe8, 0xdd, 0x74, 0x1f, 0x4b, 0xbd, 0x8b, 0x8a],
  [0x70, 0x3e, 0xb5, 0x66, 0x48, 0x03, 0xf6, 0x0e, 0x61, 0x35, 0x57, 0xb9, 0x86, 0xc1, 0x1d, 0x9e],
  [0xe1, 0xf8, 0x98, 0x11, 0x69, 0xd9, 0x8e, 0x94, 0x9b, 0x1e, 0x87, 0xe9, 0xce, 0x55, 0x28, 0xdf],
  [0x8c, 0xa1, 0x89, 0x0d, 0xbf, 0xe6, 0x42, 0x68, 0x41, 0x99, 0x2d, 0x0f, 0xb0, 0x54, 0xbb, 0x16]]

/-- The S-box by its table: row = high nibble, column = low nibble (R102). -/
def sbox (a : Byte) : Byte :=
  ((sboxRowsLow ++ sboxRowsHigh).getD (a.toNat / 16) []).getD (a.toNat % 16) 0

/-- A word of zero bytes. -/
def Col.zero : Col := ⟨0, 0, 0, 0⟩

/-- XOR of two words, byte by byte. -/
def Col.xor (a b : Col) : Col := ⟨a.b0 ^^^ b.b0, a.b1 ^^^ b.b1, a.b2 ^^^ b.b2, a.b3 ^^^ b.b3⟩

/-- `RotWord([a0, a1, a2, a3]) = [a1, a2, a3, a0]` (R103). -/
def rotWord (a : Col) : Col := ⟨a.b1, a.b2, a.b3, a.b0⟩

/-- `SubWord` applies Sbox to each byte (R103). -/
def subWord (a : Col) : Col := ⟨sbox a.b0, sbox a.b1, sbox a.b2, sbox a.b3⟩

/-- `Rcon[j] = [x^(j-1), 0, 0, 0]` (R103). -/
def rcon (j : Nat) : Col := ⟨xtime^[j - 1] 1, 0, 0, 0⟩

/-- The word `B[4i .. 4i+4)`; a byte the sequence does not have counts as 0. -/
def colOfBytes (bs : Bytes) (i : Nat) : Col :=
  ⟨bs.getD (4 * i) 0, bs.getD (4 * i + 1) 0, bs.getD (4 * i + 2) 0, bs.getD (4 * i + 3) 0⟩

/-- The next word of the key expansion, `w[i]`, from the words before it, latest first (R105). -/
def nextKeyWord (i : Nat) (latest : List Col) : Col :=
  let temp := latest.getD 0 Col.zero
  let temp' :=
    if i % 8 = 0 then Col.xor (subWord (rotWord temp)) (rcon (i / 8))
    else if i % 8 = 4 then subWord temp
    else temp
  Col.xor (latest.getD 7 Col.zero) temp'

/-- `n` steps of the loop of R105 from index `i`, on the words so far, latest first. -/
def expandKey : Nat → Nat → List Col → List Col
  | 0, _, latest => latest
  | n + 1, i, latest => expandKey n (i + 1) (nextKeyWord i latest :: latest)

/-- `KeyExpansion(K)`: the 60 words `w[0..59]` (R105). -/
def keyExpansion (k : Bytes) : List Col :=
  (expandKey 52 8 ((List.range 8).map (colOfBytes k)).reverse).reverse

/-- The words of round `rnd` of the key expansion (R107). -/
def roundKey (w : List Col) (rnd : Nat) : Block :=
  ⟨w.getD (4 * rnd) Col.zero, w.getD (4 * rnd + 1) Col.zero,
   w.getD (4 * rnd + 2) Col.zero, w.getD (4 * rnd + 3) Col.zero⟩

/-- XOR of two blocks. -/
def Block.xor (x y : Block) : Block :=
  ⟨Col.xor x.c0 y.c0, Col.xor x.c1 y.c1, Col.xor x.c2 y.c2, Col.xor x.c3 y.c3⟩

/-- SubBytes (R107). -/
def subBytes (s : Block) : Block := ⟨subWord s.c0, subWord s.c1, subWord s.c2, subWord s.c3⟩

/-- ShiftRows: row `r` rotates left by `r` (R107). -/
def shiftRows (s : Block) : Block :=
  ⟨⟨s.c0.b0, s.c1.b1, s.c2.b2, s.c3.b3⟩,
   ⟨s.c1.b0, s.c2.b1, s.c3.b2, s.c0.b3⟩,
   ⟨s.c2.b0, s.c3.b1, s.c0.b2, s.c1.b3⟩,
   ⟨s.c3.b0, s.c0.b1, s.c1.b2, s.c2.b3⟩⟩

/-- MixColumns on one column (R107). -/
def mixColumn (a : Col) : Col :=
  ⟨gmul a.b0 2 ^^^ gmul a.b1 3 ^^^ a.b2 ^^^ a.b3,
   a.b0 ^^^ gmul a.b1 2 ^^^ gmul a.b2 3 ^^^ a.b3,
   a.b0 ^^^ a.b1 ^^^ gmul a.b2 2 ^^^ gmul a.b3 3,
   gmul a.b0 3 ^^^ a.b1 ^^^ a.b2 ^^^ gmul a.b3 2⟩

/-- MixColumns (R107). -/
def mixColumns (s : Block) : Block := ⟨mixColumn s.c0, mixColumn s.c1, mixColumn s.c2, mixColumn s.c3⟩

/-- `n` full rounds from round `rnd` (R108). -/
def cipherRounds (w : List Col) : Nat → Nat → Block → Block
  | 0, _, s => s
  | n + 1, rnd, s =>
    cipherRounds w n (rnd + 1) (Block.xor (mixColumns (shiftRows (subBytes s))) (roundKey w rnd))

/-- `AES256(K, X)` (R108): 13 full rounds and a last one without MixColumns. -/
def aes256 (k : Bytes) (x : Block) : Block :=
  let w := keyExpansion k
  let s := cipherRounds w 13 1 (Block.xor x (roundKey w 0))
  Block.xor (shiftRows (subBytes s)) (roundKey w 14)

/-- The 16 bytes of a block, first byte first (R106). -/
def blockBytes (x : Block) : Bytes :=
  [x.c0.b0, x.c0.b1, x.c0.b2, x.c0.b3, x.c1.b0, x.c1.b1, x.c1.b2, x.c1.b3,
   x.c2.b0, x.c2.b1, x.c2.b2, x.c2.b3, x.c3.b0, x.c3.b1, x.c3.b2, x.c3.b3]

/-- The block of the first 16 bytes of a sequence; a byte the sequence does not have counts as 0. -/
def blockOfBytes (bs : Bytes) : Block :=
  ⟨colOfBytes bs 0, colOfBytes bs 1, colOfBytes bs 2, colOfBytes bs 3⟩

end Sys2Proof.Machine
end

