-- ==== Sys2Proof/Machine/Gcm.lean ====
section
/-! DEFINITION. GF(2^128) and Galois/Counter Mode with a 12-byte IV, a 16-byte tag and no associated data (40_aes_gcm.md R110-R120). -/

namespace Sys2Proof.Machine

/-- A block as a bit string: its bit 0 is the MSB of byte 0, so the big-endian integer is the bit vector's
value (00_scope.md R12). -/
abbrev Bits128 := BitVec 128

/-- The big-endian bit string of a word's four bytes. -/
def colBits (a : Col) : BitVec 32 := a.b0 ++ a.b1 ++ a.b2 ++ a.b3

/-- The word of a big-endian 32-bit string. -/
def colOfBits (v : BitVec 32) : Col :=
  ⟨v.extractLsb' 24 8, v.extractLsb' 16 8, v.extractLsb' 8 8, v.extractLsb' 0 8⟩

/-- A block as a bit string (R12). -/
def blockBits (x : Block) : Bits128 := colBits x.c0 ++ colBits x.c1 ++ colBits x.c2 ++ colBits x.c3

/-- The block of a bit string (R12). -/
def blockOfBits (v : Bits128) : Block :=
  ⟨colOfBits (v.extractLsb' 96 32), colOfBits (v.extractLsb' 64 32),
   colOfBits (v.extractLsb' 32 32), colOfBits (v.extractLsb' 0 32)⟩

/-- `R = 0xE1 || zeros(15)`, the reduction constant (R110). -/
def gf128R : Bits128 := 0xE1000000000000000000000000000000

/-- The last `n` turns of the loop of R111: bit `i` of X, for `i = 128 - n .. 127`, is the bit of weight
`n - 1` and below. -/
def gf128Loop (x : Bits128) : Nat → Bits128 → Bits128 → Bits128
  | 0, z, _ => z
  | n + 1, z, v =>
    gf128Loop x n (if x.getLsbD n then z ^^^ v else z)
      (if v.getLsbD 0 then v >>> 1 ^^^ gf128R else v >>> 1)

/-- The product `X • Y` (R111). -/
def gf128Mul (x y : Bits128) : Bits128 := gf128Loop x 128 0 y

/-- `Y_m` of R113 from `Y_0 = y` over `m` blocks of `x`; a last block shorter than 16 bytes is zero-padded,
which is the padding of R118. -/
def ghashBlocks (h : Bits128) : Nat → Bits128 → Bytes → Bits128
  | 0, y, _ => y
  | m + 1, y, x => ghashBlocks h m (gf128Mul (y ^^^ blockBits (blockOfBytes x)) h) (x.drop 16)

/-- `GHASH_H(X)` for X a whole number of blocks (R113). -/
def ghash (h : Bits128) (x : Bytes) : Bits128 := ghashBlocks h (x.length / 16) 0 x

/-- `inc32(X)`: the last four bytes, as a big-endian counter, plus 1 modulo 2^32 (R114). -/
def inc32 (x : Block) : Block := { x with c3 := colOfBits (colBits x.c3 + 1) }

/-- XOR of two byte sequences, as long as the shorter one. -/
def xorBytes (a b : Bytes) : Bytes := List.zipWith (fun x y => x ^^^ y) a b

/-- `Y_1 || .. || Y_n` of R115 for `n` blocks from the counter block `cb`. -/
def gctrBlocks (k : Bytes) : Nat → Block → Bytes → Bytes
  | 0, _, _ => []
  | n + 1, cb, x =>
    xorBytes (x.take 16) (blockBytes (aes256 k cb)) ++ gctrBlocks k n (inc32 cb) (x.drop 16)

/-- `GCTR_K(ICB, X)` (R115), with `n = ceil(len(X) / 16)` blocks. -/
def gctr (k : Bytes) (icb : Block) (x : Bytes) : Bytes := gctrBlocks k ((x.length + 15) / 16) icb x

/-- The hash subkey `H = AES256(K, zeros(16))` (R112). -/
def hashSubkey (k : Bytes) : Bits128 := blockBits (aes256 k (blockOfBytes []))

/-- The pre-counter block `J0 = iv || 00 00 00 01` (R116). -/
def preCounter (iv : Bytes) : Block := blockOfBytes (iv ++ [0, 0, 0, 1])

/-- `[n]_64`, the 8-byte big-endian encoding of `n` (00_scope.md R12). -/
def be64 (n : Nat) : Bytes :=
  let v := BitVec.ofNat 64 n
  [v.extractLsb' 56 8, v.extractLsb' 48 8, v.extractLsb' 40 8, v.extractLsb' 32 8,
   v.extractLsb' 24 8, v.extractLsb' 16 8, v.extractLsb' 8 8, v.extractLsb' 0 8]

/-- `zeros(n)` (00_scope.md R11). -/
def zeros (n : Nat) : Bytes := List.replicate n 0

/-- The GHASH input of the tag: `C || zeros(u) || [0]_64 || [8 * len(C)]_64` (R118). -/
def tagInput (c : Bytes) : Bytes :=
  c ++ zeros ((16 - c.length % 16) % 16) ++ be64 0 ++ be64 (8 * c.length)

/-- `GcmTag(K, iv, C)`, 16 bytes (R118). -/
def gcmTag (k iv c : Bytes) : Bytes :=
  let s := ghash (hashSubkey k) (tagInput c)
  blockBytes (Block.xor (blockOfBits s) (aes256 k (preCounter iv)))

/-- `GCM_AE(K, iv, P) = (C, T)` (R119). -/
def gcmAE (k iv p : Bytes) : Bytes × Bytes :=
  let c := gctr k (inc32 (preCounter iv)) p
  (c, gcmTag k iv c)

/-- `GCM_AD(K, iv, C, T')`: all 16 tag bytes are compared before any plaintext is formed (R120). -/
def gcmAD (k iv c t : Bytes) : Option Bytes :=
  if gcmTag k iv c = t then some (gctr k (inc32 (preCounter iv)) c) else none

end Sys2Proof.Machine
end

