-- ==== Sys2Proof/Machine/State.lean ====
section
/-! DEFINITION. The state of AEADC (10_state.md R20) with its parameters and its inputs, and the state after reset (R47). -/

namespace Sys2Proof.Machine

/-- A buffer: the bytes that are not zero, by rising address. An unlisted byte reads 0, which is what every
buffer holds after reset (10_state.md R47). -/
abbrev Memory := List Host.Cell

/-- The command sequencer's state (10_state.md R22). -/
inductive Fsm where
  /-- No command is in flight. -/
  | idle
  /-- A command has been accepted and has not completed. -/
  | busy
  deriving DecidableEq, Repr

/-- The result codes of 10_state.md R33. Codes 7 to 15 are never produced (93 U9). -/
inductive ErrCode where
  /-- 0, success. -/
  | ok
  /-- 1, `KEY_LEN != 32`. -/
  | invalidKeyLength
  /-- 2, the text is not valid base64 or the frame is shorter than 44 bytes. -/
  | malformedBlob
  /-- 3, the tag does not verify. -/
  | authenticationFailed
  /-- 4, the draw failed. -/
  | randomSourceUnavailable
  /-- 5, the buffer capacity is exceeded. -/
  | lengthExceeded
  /-- 6, the CMD word selects no command. -/
  | illegalCommand
  deriving DecidableEq, Repr

/-- An answer of the random source (42_trng.md R156): exactly 28 bytes, or Fail. -/
inductive TrngAnswer where
  /-- `Ok(d)`. -/
  | ok (d : Vector Byte 28)
  /-- `Fail`. -/
  | fail
  deriving DecidableEq, Repr

/-- The width of a bus access (20_memory.md R62). -/
inductive AccessSize where
  /-- 8 bits. -/
  | byte
  /-- 16 bits. -/
  | half
  /-- 32 bits, the only legal width. -/
  | word
  /-- 64 bits. -/
  | double
  /-- A burst that is not a sequence of single 32-bit beats. -/
  | burst
  deriving DecidableEq, Repr

/-- What a bus access does. -/
inductive AccessKind where
  /-- A read. -/
  | read
  /-- A write of `v`; a width other than 32 bits never uses `v`. -/
  | write (v : Word)
  deriving DecidableEq, Repr

/-- A bus access at a system address (20_memory.md R60). -/
structure Access where
  addr : Nat
  size : AccessSize
  kind : AccessKind
  deriving DecidableEq, Repr

/-- What the bus answers to a host access. -/
inductive Response where
  /-- The last step was no host access. -/
  | none
  /-- A read returned `v` (20_memory.md R63). -/
  | data (v : Word)
  /-- A write was taken off the bus (20_memory.md R64). -/
  | written
  /-- `raise BusError` (20_memory.md R62). -/
  | busError
  /-- The address is outside the aperture: the access does not reach AEADC (20_memory.md R60). -/
  | notReached
  deriving DecidableEq, Repr

/-- One item of a host program (30_encoding.md R92, R96; 70_reset_and_hazards.md R210). The other pseudo-instructions expand to these. -/
inductive HostOp where
  /-- Any bus access at a system address. -/
  | bus (a : Access)
  /-- `W off, v`. -/
  | write (off : Nat) (v : Word)
  /-- `R off`. -/
  | read (off : Nat)
  /-- `POLL off, mask, val`: repeat `R off` until `(value AND mask) = val`. -/
  | poll (off : Nat) (mask val : Word)
  /-- `READOUT` (R96): reads OUT_LEN, then the OUT words that hold that many bytes. -/
  | readout
  /-- Steps 6 and 7 of 70_reset_and_hazards.md R210: reads STATUS, takes ERR, and goes on with `READOUT` if
  ERR = 0 (log 19). -/
  | takeResult
  /-- Step 5 of R210 by the interrupt: waits until irq is asserted; no bus access (log 19). -/
  | waitIrq
  deriving DecidableEq, Repr

/-- One turn of the schedule: which agent moves, and what it brings with it (00_scope.md R17, R19;
30_encoding.md R93; 60_exceptions.md R192). -/
inductive Turn where
  /-- The host issues its next access. -/
  | host
  /-- The engine takes its completion step, if one is enabled (`@COMPLETE`). -/
  | engine
  /-- The random source answers, if a draw is outstanding. -/
  | source (a : TrngAnswer)
  /-- The engine leaves a byte in scratch, if a command is in flight (93 U10). -/
  | scratch (a : Nat) (v : Byte)
  /-- Reset as one atomic step (`@RESET`). -/
  | reset
  /-- The reset line is asserted and held (70_reset_and_hazards.md R205). -/
  | holdReset
  /-- The reset line is released. -/
  | releaseReset
  deriving DecidableEq, Repr

/-- A reason for which the machine stops with a fault. AEADC takes no traps (60_exceptions.md, opening and
R187): every failure is the result code of a completion, and a BusError is a response on the bus
(20_memory.md R62). So no step faults and there is no constructor (log 12; safe). -/
inductive Fault where
  deriving DecidableEq, Repr

/-- A reason for which an instruction has no meaning. -/
inductive Refusal where
  /-- Raised by an arm of `exec` whose instruction has no meaning yet; no arm does (safe: it would stop). -/
  | notModelled (mnemonic : String)
  deriving DecidableEq, Repr

/-- The state: the record of 10_state.md R20, the parameters, the reset line, and the model's inputs and
observations. -/
structure State where
  /-- The parameters (00_scope.md R8, 20_memory.md R60); no step changes them. -/
  cfg : Config
  /-- `fsm` (R20, R22). -/
  fsm : Fsm
  /-- `cmd_latch`, hidden (R42). -/
  cmdLatch : Word
  /-- `IE`, CTRL[0] (R28). -/
  ie : Bool
  /-- `DONE`, STATUS[1] (R31). -/
  done : Bool
  /-- `ACCERR`, STATUS[2] (R32). -/
  accErr : Bool
  /-- `ERR`, STATUS[11:8] (R33). -/
  err : BitVec 4
  /-- `KEY_LEN` (R35). -/
  keyLen : Word
  /-- `IN_LEN` (R36). -/
  inLen : Word
  /-- `OUT_LEN` (R37). -/
  outLen : Word
  /-- `KEY_BUF`, 32 bytes (R38). -/
  keyBuf : Memory
  /-- `IN_BUF`, BUF_SIZE bytes (R39). -/
  inBuf : Memory
  /-- `OUT_BUF`, BUF_SIZE bytes (R40). -/
  outBuf : Memory
  /-- `scratch`, the datapath's internal values (R43; log 7). -/
  scratch : Memory
  /-- Is reset being held (70_reset_and_hazards.md R205; log 9)? -/
  inReset : Bool
  /-- The random source's answer to the outstanding draw (42_trng.md R163; log 5). The model's own. -/
  trng : Option TrngAnswer
  /-- How many draws the source has answered (42_trng.md R158; log 6). The model's own. -/
  draws : Nat
  /-- The host accesses still to be issued (30_encoding.md R92; log 3). The model's own. -/
  prog : List HostOp
  /-- The turns to come (60_exceptions.md R192; log 3). The model's own. -/
  sched : List Turn
  /-- The bus's answer to the last step's host access (log 3). The model's own. -/
  resp : Response
  deriving DecidableEq, Repr

/-- The machine right after reset: every component of R20 at its value in R47, reset released (R207). The
parameters are OPEN and named by log 1 and log 2; the inputs are empty (log 3): no host program is loaded. -/
def State.reset : State where
  cfg := Config.atReset
  fsm := .idle
  cmdLatch := 0
  ie := false
  done := false
  accErr := false
  err := 0
  keyLen := 0
  inLen := 0
  outLen := 0
  keyBuf := []
  inBuf := []
  outBuf := []
  scratch := []
  inReset := false
  trng := none
  draws := 0
  prog := []
  sched := []
  resp := .none

end Sys2Proof.Machine
end

