-- ==== Sys2Proof/Machine/Ops.lean ====
section
/-! DEFINITION. The named operations over buffers and the state: reading and writing buffer bytes, acceptance, completion, acknowledgement and reset. -/

namespace Sys2Proof.Machine

/-- The byte at `a`; an unlisted byte reads 0 (10_state.md R47). -/
def Memory.read : Memory → Nat → Byte
  | [], _ => 0
  | (k, v) :: m, a => if k = a then v else Memory.read m a

/-- Lists the byte `v` at `a`, in the place rising addresses give it. -/
def Memory.put : Memory → Nat → Byte → Memory
  | [], a, v => [(a, v)]
  | (k, w) :: m, a, v =>
    if a < k then (a, v) :: (k, w) :: m
    else if a = k then (a, v) :: m
    else (k, w) :: Memory.put m a v

/-- Writes the byte `v` at `a`; writing 0, what an unlisted byte reads as, removes the entry. -/
def Memory.write (m : Memory) (a : Nat) (v : Byte) : Memory :=
  if v = 0 then m.filter (fun c => c.1 != a) else Memory.put m a v

/-- Writes the bytes of `bs` at `a`, `a + 1` and so on. -/
def Memory.writeBytes (m : Memory) (a : Nat) : Bytes → Memory
  | [] => m
  | b :: bs => Memory.write (Memory.writeBytes m (a + 1) bs) a b

/-- The slice `B[a .. a+n)` of a buffer (00_scope.md R11). -/
def Memory.slice (m : Memory) (a : Nat) : Nat → Bytes
  | 0 => []
  | n + 1 => Memory.read m a :: Memory.slice m (a + 1) n

/-- The canonical form: addresses strictly rising, no listed byte is 0. -/
def Memory.wf (m : Memory) : Bool :=
  decide (m.Pairwise fun c d => c.1 < d.1) && m.all fun c => c.2 != 0

/-- Every listed byte lies in `[0, n)`: the buffer holds at most `n` bytes. -/
def Memory.within (n : Nat) (m : Memory) : Bool := m.all fun c => decide (c.1 < n)

/-- The bytes of a word in buffer order: byte `b` is bits `[8b+7 : 8b]` (20_memory.md R65). -/
def wordBytes (v : Word) : Bytes :=
  [v.extractLsb' 0 8, v.extractLsb' 8 8, v.extractLsb' 16 8, v.extractLsb' 24 8]

/-- The word of four buffer bytes, `b0 | b1 << 8 | b2 << 16 | b3 << 24` (20_memory.md R63). -/
def wordOfBytes (b0 b1 b2 b3 : Byte) : Word :=
  b0.setWidth 32 ||| b1.setWidth 32 <<< 8 ||| b2.setWidth 32 <<< 16 ||| b3.setWidth 32 <<< 24

/-- The word at buffer offset `o` (20_memory.md R63). -/
def Memory.readWord (m : Memory) (o : Nat) : Word :=
  wordOfBytes (Memory.read m o) (Memory.read m (o + 1)) (Memory.read m (o + 2)) (Memory.read m (o + 3))

/-- Writes the four bytes of a word at buffer offset `o` (20_memory.md R64). -/
def Memory.writeWord (m : Memory) (o : Nat) (v : Word) : Memory :=
  Memory.writeBytes m o (wordBytes v)

/-- The number of a result code (10_state.md R33). -/
def errNumber : ErrCode → BitVec 4
  | .ok => 0
  | .invalidKeyLength => 1
  | .malformedBlob => 2
  | .authenticationFailed => 3
  | .randomSourceUnavailable => 4
  | .lengthExceeded => 5
  | .illegalCommand => 6

/-- `Accept(v)` of 43_commands.md R165: the previous result is wiped and a command is in flight. The word
is not looked at (30_encoding.md R83). -/
def accept (v : Word) (s : State) : State :=
  { s with
    cmdLatch := v
    outBuf := []
    outLen := 0
    err := 0
    done := false
    fsm := .busy }

/-- The result part of `finish`: on code 0 with an output, OUT_BUF and OUT_LEN are written
(43_commands.md R166). -/
def publish (code : ErrCode) (out : Option Bytes) (s : State) : State :=
  match code, out with
  | .ok, some bs => { s with outBuf := Memory.writeBytes s.outBuf 0 bs, outLen := BitVec.ofNat 32 bs.length }
  | _, _ => s

/-- `finish(code, out)` of 43_commands.md R166, the block's one event (60_exceptions.md R187): the result
is published, key, input and scratch are wiped, ERR and DONE are set and the sequencer is idle. The
answer of the draw is discarded with scratch (42_trng.md R160). -/
def finish (code : ErrCode) (out : Option Bytes) (s : State) : State :=
  { publish code out s with
    keyBuf := []
    keyLen := 0
    inBuf := []
    inLen := 0
    scratch := []
    trng := none
    cmdLatch := 0
    err := errNumber code
    done := true
    fsm := .idle }

/-- A write of STATUS, which is also the return from a completion (10_state.md R29; 60_exceptions.md
R191): bit 1 clears DONE, bit 2 clears ACCERR, every other bit is ignored. -/
def acknowledge (v : Word) (s : State) : State :=
  { s with
    done := s.done && !v.getLsbD 1
    accErr := s.accErr && !v.getLsbD 2 }

/-- Reset: every component of 10_state.md R20 takes its value in R47 (70_reset_and_hazards.md R205). The
answer of an aborted command's draw is discarded (R206). Parameters and the outside world stay. -/
def resetBlock (s : State) : State :=
  { s with
    fsm := .idle
    cmdLatch := 0
    ie := false
    done := false
    accErr := false
    err := 0
    keyLen := 0
    inLen := 0
    outLen := 0
    keyBuf := []
    inBuf := []
    outBuf := []
    scratch := []
    trng := none }

/-- May the engine work on a command: one is in flight and reset is not held (43_commands.md R166;
70_reset_and_hazards.md R205)? -/
def engineRuns (s : State) : Bool := s.fsm == .busy && !s.inReset

/-- The engine leaves a byte of its work in scratch while a command is in flight (10_state.md R43, 93 U10;
log 7). -/
def scratchWork (a : Nat) (v : Byte) (s : State) : State :=
  if engineRuns s then { s with scratch := Memory.write s.scratch a v } else s

end Sys2Proof.Machine
end

