-- ==== Sys2Proof/Machine/Operands.lean ====
section
/-! DEFINITION. What a command reads at completion and how frames are built and split (30_encoding.md R85-R89). -/

namespace Sys2Proof.Machine

/-- The key, `KEY_BUF[0..32)` (10_state.md R38). -/
def keyOperand (s : State) : Bytes := Memory.slice s.keyBuf 0 Config.keyBytes

/-- The input, `IN_BUF[0..IN_LEN)`: plaintext or blob text (10_state.md R36, R39). -/
def inputOperand (s : State) : Bytes := Memory.slice s.inBuf 0 s.inLen.toNat

/-- `KEY_LEN = 32` (10_state.md R35). -/
def keyLengthOk (s : State) : Bool := s.keyLen == 32

/-- `b64len(IN_LEN + 44) <= BUF_SIZE`, on unbounded naturals (43_commands.md R167). -/
def encryptFits (s : State) : Bool :=
  decide (b64len (s.inLen.toNat + Config.frameOverhead) ≤ s.cfg.bufSize)

/-- `IN_LEN <= BUF_SIZE` (43_commands.md R168). -/
def decryptFits (s : State) : Bool := decide (s.inLen.toNat ≤ s.cfg.bufSize)

/-- The salt of a draw, `d[0..16)` (42_trng.md R157). -/
def drawSalt (d : Vector Byte 28) : Bytes := d.toList.take Config.saltBytes

/-- The IV of a draw, `d[16..28)` (42_trng.md R157). -/
def drawIv (d : Vector Byte 28) : Bytes := d.toList.drop Config.saltBytes

/-- The frame `salt || iv || C || T` (30_encoding.md R86). -/
def buildFrame (salt iv c t : Bytes) : Bytes := salt ++ iv ++ c ++ t

/-- `F[0..16)` of a frame; no rule reads it (30_encoding.md R87). -/
def frameSalt (f : Bytes) : Bytes := f.take Config.saltBytes

/-- `F[16..28)` of a frame (30_encoding.md R87). -/
def frameIv (f : Bytes) : Bytes := (f.drop Config.saltBytes).take Config.ivBytes

/-- `F[28..L-16)` of a frame of length L (30_encoding.md R87). -/
def frameCiphertext (f : Bytes) : Bytes :=
  (f.drop Config.drawBytes).take (f.length - Config.frameOverhead)

/-- `F[L-16..L)` of a frame of length L (30_encoding.md R87). -/
def frameTag (f : Bytes) : Bytes := f.drop (f.length - Config.tagBytes)

/-- The blob text of a plaintext under a key and a draw (43_commands.md R167). -/
def encryptText (k : Bytes) (d : Vector Byte 28) (p : Bytes) : Bytes :=
  let ct := gcmAE k (drawIv d) p
  b64enc (buildFrame (drawSalt d) (drawIv d) ct.1 ct.2)

/-- What a frame of at least 44 bytes decrypts to (43_commands.md R168); the salt is not read (R123). -/
def decryptFrame (k f : Bytes) : Option Bytes :=
  gcmAD k (frameIv f) (frameCiphertext f) (frameTag f)

end Sys2Proof.Machine
end

