-- ==== Sys2Proof/Machine/Trng.lean ====
section
/-! DEFINITION. The interface to the random source (42_trng.md R155-R163). -/

namespace Sys2Proof.Machine

/-- The command in flight is an ENCRYPT past its key and capacity checks: the only command that draws
(42_trng.md R158). -/
def wantsDraw (s : State) : Bool :=
  engineRuns s && decode s.cmdLatch == .encrypt && keyLengthOk s && encryptFits s

/-- A draw is outstanding: it is wanted and the source has not answered it (42_trng.md R163). -/
def drawOutstanding (s : State) : Bool := wantsDraw s && s.trng == none

/-- The source answers `TrngDraw(28)` (42_trng.md R156). There is one answer to a draw (R158) and none
without a draw outstanding (log 5). -/
def sourceAnswer (a : TrngAnswer) (s : State) : State :=
  if drawOutstanding s then { s with trng := some a, draws := s.draws + 1 } else s

/-- Is the completion step enabled (43_commands.md R172)? At once, but for an ENCRYPT past its checks,
which waits for the source's answer (42_trng.md R163). -/
def completionEnabled (s : State) : Bool := engineRuns s && !drawOutstanding s

end Sys2Proof.Machine
end

