-- ==== Sys2Proof/Machine/Commands.lean ====
section
/-! DEFINITION. The bodies of the four commands and their completion steps (43_commands.md R166-R171). -/

namespace Sys2Proof.Machine

/-- `Body(ENCRYPT)` of R167, with the check order of 60_exceptions.md R183. `none`: the checks passed and
the random source has not answered, so the completion step is not enabled yet (42_trng.md R163). -/
def encryptBody (s : State) : Option (ErrCode × Option Bytes) :=
  if !keyLengthOk s then some (.invalidKeyLength, none)
  else if !encryptFits s then some (.lengthExceeded, none)
  else
    match s.trng with
    | none => none
    | some .fail => some (.randomSourceUnavailable, none)
    | some (.ok d) => some (.ok, some (encryptText (keyOperand s) d (inputOperand s)))

/-- `Body(DECRYPT)` of R168, with the check order of 60_exceptions.md R184. -/
def decryptBody (s : State) : ErrCode × Option Bytes :=
  if !keyLengthOk s then (.invalidKeyLength, none)
  else if !decryptFits s then (.lengthExceeded, none)
  else
    match b64dec (inputOperand s) with
    | none => (.malformedBlob, none)
    | some f =>
      if f.length < Config.frameOverhead then (.malformedBlob, none)
      else
        match decryptFrame (keyOperand s) f with
        | none => (.authenticationFailed, none)
        | some p => (.ok, some p)

/-- ENCRYPT's completion (R166, R167). While the random source has not answered the command stays in
flight and nothing changes (42_trng.md R163; log 10). -/
def execEncrypt (s : State) : Host.Outcome State Fault Refusal :=
  match encryptBody s with
  | none => .next s
  | some r => .next (finish r.1 r.2 s)

/-- DECRYPT's completion (R166, R168). -/
def execDecrypt (s : State) : Host.Outcome State Fault Refusal :=
  .next (finish (decryptBody s).1 (decryptBody s).2 s)

/-- WIPE's completion: code 0 and no output; `finish` erases the rest (R166, R170). -/
def execWipe (s : State) : Host.Outcome State Fault Refusal :=
  .next (finish .ok none s)

/-- The completion of an illegal word, whichever it is: code 6 (R166, R171). -/
def execIllegal (_w : Word) (s : State) : Host.Outcome State Fault Refusal :=
  .next (finish .illegalCommand none s)

end Sys2Proof.Machine
end

