-- ==== Sys2Proof/Machine/Flags.lean ====
section
/-! DEFINITION. The STATUS and CTRL words, the interrupt line and the guard of a write (10_state.md R28-R33, R41; 20_memory.md R64). -/

namespace Sys2Proof.Machine

/-- A flag as a 32-bit word. -/
def flagWord (b : Bool) : Word := (BitVec.ofBool b).setWidth 32

/-- STATUS.BUSY: a command is in flight (10_state.md R30). -/
def isBusy (s : State) : Bool := s.fsm == .busy

/-- What a read of STATUS returns: `zext_32(ERR) << 8 | ACCERR << 2 | DONE << 1 | BUSY` (10_state.md R29). -/
def statusWord (s : State) : Word :=
  s.err.setWidth 32 <<< 8 ||| flagWord s.accErr <<< 2 ||| flagWord s.done <<< 1 ||| flagWord (isBusy s)

/-- What a read of CTRL returns: `zext_32(IE)` (10_state.md R28). -/
def ctrlWord (s : State) : Word := flagWord s.ie

/-- The interrupt line, level-sensitive: `irq = DONE AND IE` (10_state.md R41, 60_exceptions.md R188). -/
def irq (s : State) : Bool := s.done && s.ie

/-- The guarded locations: CMD, KEY_LEN, IN_LEN, the KEY window, the IN window (20_memory.md R64). -/
def guarded (off : Nat) : Bool :=
  off == Config.offCmd || off == Config.offKeyLen || off == Config.offInLen
    || (decide (Config.offKey ≤ off) && decide (off < Config.offKeyEnd))
    || (decide (Config.offIn ≤ off) && decide (off < Config.offOut))

end Sys2Proof.Machine
end

