-- ==== Sys2Proof/Machine/Bus.lean ====
section
/-! DEFINITION. Host accesses to the aperture: HostRead, HostWrite and the bus error (20_memory.md R60-R64; 10_state.md R24-R40). -/

namespace Sys2Proof.Machine

/-- `HostRead(off)`, for a legal access (20_memory.md R63). CMD, the KEY and IN windows and every reserved
offset read 0. -/
def hostRead (s : State) (off : Nat) : Word :=
  if off = Config.offId then Config.idValue
  else if off = Config.offCaps then BitVec.ofNat 32 s.cfg.bufSize
  else if off = Config.offCtrl then ctrlWord s
  else if off = Config.offStatus then statusWord s
  else if off = Config.offKeyLen then s.keyLen
  else if off = Config.offInLen then s.inLen
  else if off = Config.offOutLen then s.outLen
  else if Config.offOut ≤ off ∧ off < Config.aperture then
    (if off - Config.offOut < s.cfg.bufSize then Memory.readWord s.outBuf (off - Config.offOut) else 0)
  else 0

/-- `HostWrite(off, v)`, for a legal access (20_memory.md R64). -/
def hostWrite (s : State) (off : Nat) (v : Word) : State :=
  if guarded off && isBusy s then { s with accErr := true }
  else if off = Config.offCtrl then { s with ie := v.getLsbD 0 }
  else if off = Config.offStatus then acknowledge v s
  else if off = Config.offCmd then accept v s
  else if off = Config.offKeyLen then { s with keyLen := v }
  else if off = Config.offInLen then { s with inLen := v }
  else if Config.offKey ≤ off ∧ off < Config.offKeyEnd then
    { s with keyBuf := Memory.writeWord s.keyBuf (off - Config.offKey) v }
  else if Config.offIn ≤ off ∧ off < Config.offOut then
    (if off - Config.offIn < s.cfg.bufSize then
      { s with inBuf := Memory.writeWord s.inBuf (off - Config.offIn) v }
     else s)
  else s

/-- Does the access reach AEADC: `0 <= off < 0x30000` (20_memory.md R60)? -/
def reaches (s : State) (a : Access) : Bool :=
  decide (s.cfg.baseAddr ≤ a.addr) && decide (a.addr - s.cfg.baseAddr < Config.aperture)

/-- Is it a 32-bit access at an offset that is a multiple of 4 (20_memory.md R62)? -/
def legalAccess (s : State) (a : Access) : Bool :=
  a.size == .word && (a.addr - s.cfg.baseAddr) % 4 == 0

/-- A legal access. While reset is held it has no effect and reads 0 (70_reset_and_hazards.md R205). -/
def legalEffect (off : Nat) (k : AccessKind) (s : State) : State :=
  match k with
  | .read => { s with resp := .data (if s.inReset then 0 else hostRead s off) }
  | .write v => { (if s.inReset then s else hostWrite s off v) with resp := .written }

/-- One bus access of the host, with the bus's answer (20_memory.md R60, R62; log 8). -/
def busAccess (a : Access) (s : State) : State :=
  if !reaches s a then { s with resp := .notReached }
  else if !legalAccess s a then { s with resp := .busError }
  else legalEffect (a.addr - s.cfg.baseAddr) a.kind s

/-- The data a host gets from a read: an errored read gives 0 (20_memory.md R62). DESIGN CHOICE (log 18;
unsafe): a read outside the aperture gives the free value `Config.outsideData`. No read is answered by
`none` or `written`; the 0 beside them is never used. -/
def respData : Response → Word
  | .data v => v
  | .none => 0
  | .written => 0
  | .busError => 0
  | .notReached => Config.outsideData

end Sys2Proof.Machine
end

