-- ==== Sys2Proof/Machine/HostProgram.lean ====
section
/-! DEFINITION. The host's turn and the host-program notation with its pseudo-instructions (30_encoding.md R92-R96; 70_reset_and_hazards.md R210). -/

namespace Sys2Proof.Machine

/-- The 32-bit access at offset `off` of the aperture. -/
def accessAt (s : State) (off : Nat) (k : AccessKind) : Access := ⟨s.cfg.baseAddr + off, .word, k⟩

/-- `R off`: one 32-bit read, its value in the response (R92). -/
def readAt (off : Nat) (s : State) : State := busAccess (accessAt s off .read) s

/-- `W off, v`: one 32-bit write (R92). -/
def writeAt (off : Nat) (v : Word) (s : State) : State := busAccess (accessAt s off (.write v)) s

/-- `R OUT+4i` for `i = 0 .. ceil(n/4) - 1` (R96). -/
def outReads (n : Nat) : List HostOp :=
  (List.range ((n + 3) / 4)).map fun i => .read (Config.offOut + 4 * i)

/-- The ERR field of a STATUS word, bits [11:8] (10_state.md R29). -/
def errField (v : Word) : BitVec 4 := v.extractLsb' 8 4

/-- One turn of the program item `op`; `rest` is the program after it. A POLL whose test fails stays
(R92); READOUT puts the reads of the OUT words in its place (R96); a result is read out only when ERR = 0,
and a wait for irq stays until the line is asserted (70_reset_and_hazards.md R210; log 19). -/
def runHostOp (op : HostOp) (rest : List HostOp) (s : State) : State :=
  match op with
  | .bus a => { busAccess a s with prog := rest }
  | .write off v => { writeAt off v s with prog := rest }
  | .read off => { readAt off s with prog := rest }
  | .poll off mask val =>
    let t := readAt off s
    if respData t.resp &&& mask = val then { t with prog := rest } else t
  | .readout =>
    let t := readAt Config.offOutLen s
    { t with prog := outReads (respData t.resp).toNat ++ rest }
  | .takeResult =>
    let t := readAt Config.offStatus s
    { t with prog := if errField (respData t.resp) = 0 then .readout :: rest else rest }
  | .waitIrq => if irq s then { s with prog := rest } else s

/-- The host's turn: it issues its next access, if it has one. -/
def hostTurn (s : State) : State :=
  match s.prog with
  | [] => s
  | op :: rest => runHostOp op rest s

/-- `le32` of the bytes `d[4i .. 4i+4)`, padded with zero bytes (R94, R95). -/
def le32At (d : Bytes) (i : Nat) : Word :=
  wordOfBytes (d.getD (4 * i) 0) (d.getD (4 * i + 1) 0) (d.getD (4 * i + 2) 0) (d.getD (4 * i + 3) 0)

/-- `LOADKEY k, n` (R94); `LOADKEY k` is `loadKey k 32`. -/
def loadKey (k : Bytes) (n : Word) : List HostOp :=
  (List.range 8).map (fun j => HostOp.write (Config.offKey + 4 * j) (le32At k j))
    ++ [.write Config.offKeyLen n]

/-- `LOADIN d` (R95). -/
def loadIn (d : Bytes) : List HostOp :=
  (List.range ((d.length + 3) / 4)).map (fun i => HostOp.write (Config.offIn + 4 * i) (le32At d i))
    ++ [.write Config.offInLen (BitVec.ofNat 32 d.length)]

/-- `RUN op` (R96). -/
def runCommand (op : Word) : List HostOp := [.write Config.offCmd op, .poll Config.offStatus 1 0]

/-- `ACK` (R96). -/
def ackProgram : List HostOp := [.write Config.offStatus 6]

/-- The result of READOUT: the first `n` bytes of the words read (R96). -/
def readoutBytes (n : Nat) (ws : List Word) : Bytes := (ws.flatMap wordBytes).take n

/-- The commands that take a key and may have output: ENCRYPT and DECRYPT (70_reset_and_hazards.md R210,
steps 2 and 7). -/
def isCodecCommand (op : Word) : Bool :=
  match decode op with
  | .encrypt => true
  | .decrypt => true
  | .wipe => false
  | .illegal _ => false

/-- How a host waits for a completion (R210, step 5). -/
inductive WaitBy where
  /-- `POLL STATUS, 0x1, 0x0`. -/
  | poll
  /-- irq, which is asserted only with DONE = 1 (10_state.md R41); IE must be 1. -/
  | irq
  deriving DecidableEq, Repr

/-- Step 5 of R210. -/
def waitFor : WaitBy → List HostOp
  | .poll => [.poll Config.offStatus 1 0]
  | .irq => [.waitIrq]

/-- Steps 2 and 3 of R210: LOADKEY for ENCRYPT and DECRYPT, and LOADIN. -/
def loadWrites (op : Word) (k d : Bytes) : List HostOp :=
  (if isCodecCommand op then loadKey k 32 else []) ++ loadIn d

/-- Steps 6 and 7 of R210; a command without output has its STATUS read alone. -/
def collectResult (op : Word) : List HostOp :=
  if isCodecCommand op then [.takeResult] else [.read Config.offStatus]

/-- Steps 4 to 9 of R210: the command, the wait, its result, ACK, and after a DECRYPT `RUN WIPE`. The host
consumes the plaintext between ACK and WIPE, which is no access (log 19). -/
def issueCommand (w : WaitBy) (op : Word) : List HostOp :=
  [.write Config.offCmd op] ++ waitFor w ++ collectResult op ++ ackProgram
    ++ (if decode op = .decrypt then runCommand (encode .wipe) else [])

/-- The per-command host protocol of 70_reset_and_hazards.md R210, steps 1 to 9, in the order they are
listed. -/
def commandProgram (w : WaitBy) (op : Word) (k d : Bytes) : List HostOp :=
  [.poll Config.offStatus 1 0] ++ loadWrites op k d ++ issueCommand w op

/-- A host program that follows R210: the writes of steps 2 and 3 may come in any order. -/
def FollowsProtocol (w : WaitBy) (op : Word) (k d : Bytes) (p : List HostOp) : Prop :=
  ∃ loads, loads.Perm (loadWrites op k d) ∧ p = [.poll Config.offStatus 1 0] ++ loads ++ issueCommand w op

/-- The optional start-up of a host driver: read ID and CAPS, and enable the interrupt to wait by it
(70_reset_and_hazards.md R209). -/
def startProgram (w : WaitBy) : List HostOp :=
  [.read Config.offId, .read Config.offCaps] ++ (if w = .irq then [.write Config.offCtrl 1] else [])

end Sys2Proof.Machine
end

