-- ==== Sys2Proof/Machine/Schedule.lean ====
section
/-! DEFINITION. The turns of the agents other than the engine's completion, and what moves when the schedule is over (00_scope.md R17; 60_exceptions.md R192; 70_reset_and_hazards.md R205). -/

namespace Sys2Proof.Machine

/-- The command the engine completes is decoded from cmd_latch at completion (30_encoding.md R83). -/
def fetched (s : State) : Instr := decode s.cmdLatch

/-- `@RESET` as one atomic step; afterwards reset is released (70_reset_and_hazards.md R205, R207). -/
def resetTurn (s : State) : State := { resetBlock s with inReset := false }

/-- Reset is asserted and held (70_reset_and_hazards.md R205; log 9). -/
def holdResetTurn (s : State) : State := { resetBlock s with inReset := true }

/-- Reset is released (70_reset_and_hazards.md R207). -/
def releaseResetTurn (s : State) : State := { s with inReset := false }

/-- Who moves when the schedule is over: the engine if its completion is enabled, else the host (log 4). -/
def idleTurn (s : State) : Turn := if completionEnabled s then .engine else .host

/-- The turn of this step. -/
def nextTurn (s : State) : Turn :=
  match s.sched with
  | [] => idleTurn s
  | t :: _ => t

/-- The state in which that turn is taken: the schedule moves on and the bus is silent. -/
def beginStep (s : State) : State := { s with sched := s.sched.tail, resp := .none }

/-- The CMD word of an instruction of `nbits` bits, as withFetchWord stores it (log 11). -/
def tableWord (nbits w : Nat) : Word := BitVec.ofNat 32 (w % 2 ^ nbits)

end Sys2Proof.Machine
end

