-- ==== Sys2Proof/Machine/Step.lean ====
section
/-! DEFINITION. One step of the machine: one agent's turn, atomic (20_memory.md R68; 60_exceptions.md R192). -/

namespace Sys2Proof.Machine

/-- A turn of the schedule. The engine's turn runs the command in cmd_latch, decoded now (30_encoding.md
R83); with no command in flight, or reset held, it has nothing to do. -/
def runTurn (t : Turn) (s : State) : Host.Outcome State Fault Refusal :=
  match t with
  | .engine => if engineRuns s then exec (fetched s) s else .next s
  | .host => .next (hostTurn s)
  | .source a => .next (sourceAnswer a s)
  | .scratch a v => .next (scratchWork a v s)
  | .reset => .next (resetTurn s)
  | .holdReset => .next (holdResetTurn s)
  | .releaseReset => .next (releaseResetTurn s)

/-- One step: the next turn of the schedule. -/
def step (s : State) : Host.Outcome State Fault Refusal := runTurn (nextTurn s) (beginStep s)

/-- The state in which the very next step runs the command of the table word `w`: the word has been
accepted (43_commands.md R165), reset is not held and the engine moves next (log 11). -/
def State.withFetchWord (s : State) (nbits w : Nat) : State :=
  { accept (tableWord nbits w) s with inReset := false, sched := .engine :: s.sched }

end Sys2Proof.Machine
end

