-- ==== Sys2Proof/Safety.lean ====
section
/-! DEFINITION. What counts as a good state, when a run is over, and which states a host cannot tell apart: the terms in which claims are made. -/

namespace Sys2Proof.Machine

/-- Every buffer and scratch is in canonical form: addresses rising, no listed byte 0. -/
abbrev MemoryCanonical (s : State) : Prop :=
  Memory.wf s.keyBuf = true ∧ Memory.wf s.inBuf = true ∧ Memory.wf s.outBuf = true
    ∧ Memory.wf s.scratch = true

/-- Each buffer holds nothing outside its bytes, and OUT_BUF nothing at or beyond OUT_LEN (10_state.md
R38-R40). -/
abbrev BuffersInBounds (s : State) : Prop :=
  Memory.within Config.keyBytes s.keyBuf = true ∧ Memory.within s.cfg.bufSize s.inBuf = true
    ∧ Memory.within s.outLen.toNat s.outBuf = true ∧ s.outLen.toNat ≤ s.cfg.bufSize

/-- While IDLE, nothing of a command is left: cmd_latch, scratch and the draw's answer are gone
(10_state.md R48; 42_trng.md R160). -/
abbrev IdleKeepsNothing (s : State) : Prop :=
  s.fsm = .idle → s.cmdLatch = 0 ∧ s.scratch = [] ∧ s.trng = none

/-- "BUSY = 1 implies DONE = 0, ERR = 0 and OUT_LEN = 0" (95_test_vectors.md section 5), and OUT_BUF is
zero (20_memory.md R70). -/
abbrev BusyPublishesNothing (s : State) : Prop :=
  s.fsm = .busy → s.done = false ∧ s.err = 0 ∧ s.outLen = 0 ∧ s.outBuf = []

/-- After an error code, OUT_BUF is zero and OUT_LEN is 0 (43_commands.md R169). -/
abbrev ErrorPublishesNothing (s : State) : Prop := s.err ≠ 0 → s.outLen = 0 ∧ s.outBuf = []

/-- Codes 7 to 15 are never written (10_state.md R33). -/
abbrev ErrIsACode (s : State) : Prop := s.err.toNat ≤ 6

/-- An answer of the random source is held only for an ENCRYPT past its checks (42_trng.md R158, R160). -/
abbrev AnswerOnlyToDraw (s : State) : Prop := s.trng ≠ none → wantsDraw s = true

/-- While reset is held, every component has its reset value (70_reset_and_hazards.md R205). -/
abbrev HeldAtReset (s : State) : Prop := s.inReset = true → resetBlock s = s

/-- The invariant of the machine; every step keeps it. -/
abbrev Invariant (s : State) : Prop :=
  s.cfg.Legal ∧ MemoryCanonical s ∧ BuffersInBounds s ∧ IdleKeepsNothing s ∧ BusyPublishesNothing s
    ∧ ErrorPublishesNothing s ∧ ErrIsACode s ∧ AnswerOnlyToDraw s ∧ HeldAtReset s

/-- A run is over: the host program has issued its last access and fsm = IDLE, so that no completion is
enabled (70_reset_and_hazards.md R216). -/
def runOver (s : State) : Bool := s.prog.isEmpty && s.fsm == .idle

/-- States that agree on everything a host access may observe: they differ at most in KEY_BUF, IN_BUF,
scratch, cmd_latch and the draw (10_state.md R38, R39, R42-R44). -/
abbrev SameToHost (s t : State) : Prop :=
  t.cfg = s.cfg ∧ t.fsm = s.fsm ∧ t.ie = s.ie ∧ t.done = s.done ∧ t.accErr = s.accErr ∧ t.err = s.err
    ∧ t.keyLen = s.keyLen ∧ t.inLen = s.inLen ∧ t.outLen = s.outLen ∧ t.outBuf = s.outBuf
    ∧ t.inReset = s.inReset ∧ t.draws = s.draws ∧ t.prog = s.prog ∧ t.sched = s.sched ∧ t.resp = s.resp

/-- `k` turns of the host, one after the other. -/
def hostTurns (k : Nat) (s : State) : State := hostTurn^[k] s

end Sys2Proof.Machine
end

