-- ==== Sys2Proof/Certificates/Slice0/Obligations.lean ====
section
/-! DEFINITION. The statements for the provers: what AEADC does, rule by rule, and the invariants every step keeps. -/

open Sys2Proof Sys2Proof.Machine

/-! Encoding (30_encoding.md R80-R84). -/

/-- R81: the three legal words, and every other word is ILLEGAL. -/
def Obligations.CommandWordsDecodeAsListed : Prop :=
  decode 0x00000001 = .encrypt ∧ decode 0x00000002 = .decrypt ∧ decode 0x00000003 = .wipe
    ∧ ∀ w : Word, w ≠ 0x00000001 → w ≠ 0x00000002 → w ≠ 0x00000003 → decode w = .illegal w

/-- Section 1 of 30_encoding.md: a few words written out by field, RSVD[31:4] then OP[3:0]. -/
def Obligations.WordsWrittenByFieldDecode : Prop :=
  decode ((0 : BitVec 28) ++ (1 : BitVec 4)) = .encrypt
    ∧ decode ((0 : BitVec 28) ++ (2 : BitVec 4)) = .decrypt
    ∧ decode ((0 : BitVec 28) ++ (3 : BitVec 4)) = .wipe
    ∧ decode ((1 : BitVec 28) ++ (1 : BitVec 4)) = .illegal 0x00000011
    ∧ decode ((0 : BitVec 28) ++ (15 : BitVec 4)) = .illegal 0x0000000F

/-- R81, R84: decoding the word of a well-formed command gives it back; every word is the word of the
command it decodes to, and that command is well-formed. -/
def Obligations.DecodeAndEncodeAgree : Prop :=
  (∀ i : Instr, i.wellFormed = true → decode (encode i) = i)
    ∧ ∀ w : Word, encode (decode w) = w ∧ (decode w).wellFormed = true

/-- R82: a word is illegal exactly when OP is 0 or 4 to 15 or RSVD is not 0; it is accepted like any
command, and its completion has code 6 and depends on nothing the command's operands hold. -/
def Obligations.IllegalWordsAreAcceptedAndCompleteWithSix : Prop :=
  ∀ (w : Word) (s : State),
    (decode w = .illegal w ↔ (opField w = 0 ∨ 4 ≤ (opField w).toNat ∨ rsvdField w ≠ 0))
    ∧ (s.fsm = .idle → s.inReset = false → decode w = .illegal w →
        writeAt 0x010 w s
            = { s with cmdLatch := w, outBuf := [], outLen := 0, err := 0, done := false, fsm := .busy, resp := .written }
          ∧ exec (decode w) (writeAt 0x010 w s)
            = .next { s with
                keyBuf := [], keyLen := 0, inBuf := [], inLen := 0, scratch := [], trng := none, cmdLatch := 0,
                outBuf := [], outLen := 0, err := 6, done := true, fsm := .idle, resp := .written })

/-! Acceptance and completion (43_commands.md R165, R166). -/

/-- R165: a CMD write while IDLE wipes the previous result, clears ERR and DONE and starts the command;
everything else is unchanged. -/
def Obligations.CmdWriteAcceptsACommand : Prop :=
  ∀ (v : Word) (s : State), s.fsm = .idle → s.inReset = false →
    writeAt 0x010 v s
      = { s with cmdLatch := v, outBuf := [], outLen := 0, err := 0, done := false, fsm := .busy, resp := .written }

/-- R166: what `finish` writes, at every byte of OUT_BUF, and that it changes nothing else. -/
def Obligations.FinishPublishesAndWipes : Prop :=
  ∀ (code : ErrCode) (out : Option Bytes) (s : State),
    finish code out s
      = { s with
          keyBuf := [], keyLen := 0, inBuf := [], inLen := 0, scratch := [], trng := none, cmdLatch := 0,
          err := errNumber code, done := true, fsm := .idle,
          outBuf := (finish code out s).outBuf, outLen := (finish code out s).outLen }
    ∧ (code ≠ .ok ∨ out = none →
        (finish code out s).outBuf = s.outBuf ∧ (finish code out s).outLen = s.outLen)
    ∧ ∀ bs : Bytes, code = .ok → out = some bs →
        (finish code out s).outLen = BitVec.ofNat 32 bs.length
        ∧ ∀ a : Nat, Memory.read (finish code out s).outBuf a
            = if a < bs.length then bs.getD a 0 else Memory.read s.outBuf a

/-- R48: a completed command leaves behind OUT_BUF, OUT_LEN, DONE, ERR and ACCERR; the rest of the
command's state is back at its reset value. Every command completes, but for an ENCRYPT past its checks
whose draw is unanswered. -/
def Obligations.CompletedCommandLeavesOnlyItsResult : Prop :=
  ∀ (i : Instr) (s : State),
    ¬(i = .encrypt ∧ s.keyLen = 32 ∧ b64len (s.inLen.toNat + 44) ≤ s.cfg.bufSize ∧ s.trng = none) →
    ∃ t, exec i s = .next t
      ∧ t.keyBuf = State.reset.keyBuf ∧ t.keyLen = State.reset.keyLen ∧ t.inBuf = State.reset.inBuf
      ∧ t.inLen = State.reset.inLen ∧ t.cmdLatch = State.reset.cmdLatch ∧ t.scratch = State.reset.scratch
      ∧ t.trng = none ∧ t.done = true ∧ t.accErr = s.accErr ∧ t.fsm = .idle

/-- What no command's completion changes: the parameters, IE, ACCERR, the reset line, the count of draws
and the model's inputs; and of OUT_BUF nothing at or beyond the OUT_LEN it leaves, when that is a new
result. -/
def Obligations.CommandFrame : Prop :=
  ∀ (i : Instr) (s t : State), exec i s = .next t →
    t.cfg = s.cfg ∧ t.ie = s.ie ∧ t.accErr = s.accErr ∧ t.inReset = s.inReset ∧ t.draws = s.draws
    ∧ t.prog = s.prog ∧ t.sched = s.sched ∧ t.resp = s.resp
    ∧ (i = .wipe ∨ (∃ w, i = .illegal w) ∨ t.err ≠ 0 → t.outBuf = s.outBuf ∧ t.outLen = s.outLen)
    ∧ (s.cfg.Legal → ∀ a : Nat, t.outLen.toNat ≤ a → Memory.read t.outBuf a = Memory.read s.outBuf a)

/-! The commands (43_commands.md R167-R171). -/

/-- R167, R183: ENCRYPT's checks in their order, with no draw when one of the first two fails, its code, and
its output; the codes' numbers come first. The last clause, that an ENCRYPT past its checks with no answer held
is in the same state again, is the model's own form of R163's wait (log 10, with the held answer of log 5). -/
def Obligations.EncryptResult : Prop :=
  ∀ s : State,
    ((finish .invalidKeyLength none s).err = 1 ∧ (finish .lengthExceeded none s).err = 5
      ∧ (finish .randomSourceUnavailable none s).err = 4 ∧ ∀ bs : Bytes, (finish .ok (some bs) s).err = 0)
    ∧ (s.keyLen ≠ 32 → wantsDraw s = false ∧ exec .encrypt s = .next (finish .invalidKeyLength none s))
    ∧ (s.keyLen = 32 → s.cfg.bufSize < 4 * ((s.inLen.toNat + 44 + 2) / 3) →
        wantsDraw s = false ∧ exec .encrypt s = .next (finish .lengthExceeded none s))
    ∧ (s.keyLen = 32 → 4 * ((s.inLen.toNat + 44 + 2) / 3) ≤ s.cfg.bufSize →
        (s.trng = some .fail → exec .encrypt s = .next (finish .randomSourceUnavailable none s))
        ∧ ∀ d : Vector Byte 28, s.trng = some (.ok d) →
            exec .encrypt s
              = .next (finish .ok
                  (some (b64enc (d.toList.take 16 ++ d.toList.drop 16
                    ++ (gcmAE (keyOperand s) (d.toList.drop 16) (inputOperand s)).1
                    ++ (gcmAE (keyOperand s) (d.toList.drop 16) (inputOperand s)).2))) s))
    ∧ (s.keyLen = 32 → 4 * ((s.inLen.toNat + 44 + 2) / 3) ≤ s.cfg.bufSize → s.trng = none →
        exec .encrypt s = .next s)

/-- R163: an ENCRYPT past its checks whose draw is unanswered waits: its completion is not enabled, the
engine's turn leaves everything as it is, and the source's answer enables it. -/
def Obligations.EncryptWaitsForTheSource : Prop :=
  ∀ (s : State) (rest : List Turn) (a : TrngAnswer),
    s.fsm = .busy → s.inReset = false → s.cmdLatch = 0x00000001 → s.keyLen = 32 →
    b64len (s.inLen.toNat + 44) ≤ s.cfg.bufSize → s.trng = none →
    completionEnabled s = false
    ∧ (s.sched = .engine :: rest → step s = .next { s with sched := rest, resp := .none })
    ∧ (sourceAnswer a s).trng = some a ∧ completionEnabled (sourceAnswer a s) = true

/-- R168, R184: DECRYPT's checks in their order, its code, and its output; the codes' numbers come first. -/
def Obligations.DecryptResult : Prop :=
  ∀ s : State,
    ((finish .invalidKeyLength none s).err = 1 ∧ (finish .lengthExceeded none s).err = 5
      ∧ (finish .malformedBlob none s).err = 2 ∧ (finish .authenticationFailed none s).err = 3
      ∧ ∀ bs : Bytes, (finish .ok (some bs) s).err = 0)
    ∧ (s.keyLen ≠ 32 → exec .decrypt s = .next (finish .invalidKeyLength none s))
    ∧ (s.keyLen = 32 → s.cfg.bufSize < s.inLen.toNat →
        exec .decrypt s = .next (finish .lengthExceeded none s))
    ∧ (s.keyLen = 32 → s.inLen.toNat ≤ s.cfg.bufSize →
        (b64dec (inputOperand s) = none → exec .decrypt s = .next (finish .malformedBlob none s))
        ∧ ∀ f : Bytes, b64dec (inputOperand s) = some f →
            (f.length < 44 → exec .decrypt s = .next (finish .malformedBlob none s))
            ∧ (44 ≤ f.length →
                (gcmTag (keyOperand s) ((f.drop 16).take 12) ((f.drop 28).take (f.length - 44))
                    ≠ f.drop (f.length - 16) →
                  exec .decrypt s = .next (finish .authenticationFailed none s))
                ∧ (gcmTag (keyOperand s) ((f.drop 16).take 12) ((f.drop 28).take (f.length - 44))
                    = f.drop (f.length - 16) →
                  exec .decrypt s
                    = .next (finish .ok
                        (some (gctr (keyOperand s) (inc32 (preCounter ((f.drop 16).take 12)))
                          ((f.drop 28).take (f.length - 44)))) s))))

/-- R170, R171: WIPE and an illegal word complete with the codes 0 and 6 and no output, in every state; from
its CMD write to its completion WIPE leaves every buffer and length zero, and an illegal word does the same. -/
def Obligations.WipeAndIllegalEraseEverything : Prop :=
  ∀ (w : Word) (s : State),
    decode 0x00000003 = .wipe
    ∧ (s.fsm = .idle → s.inReset = false →
      exec .wipe (writeAt 0x010 0x00000003 s)
        = .next { s with
            keyBuf := [], keyLen := 0, inBuf := [], inLen := 0, scratch := [], trng := none, cmdLatch := 0,
            outBuf := [], outLen := 0, err := 0, done := true, fsm := .idle, resp := .written }
      ∧ exec (.illegal w) (writeAt 0x010 w s)
        = .next { s with
            keyBuf := [], keyLen := 0, inBuf := [], inLen := 0, scratch := [], trng := none, cmdLatch := 0,
            outBuf := [], outLen := 0, err := 6, done := true, fsm := .idle, resp := .written })
    ∧ exec .wipe s
      = .next { s with
          keyBuf := [], keyLen := 0, inBuf := [], inLen := 0, scratch := [], trng := none, cmdLatch := 0,
          err := 0, done := true, fsm := .idle }
    ∧ exec (.illegal w) s
      = .next { s with
          keyBuf := [], keyLen := 0, inBuf := [], inLen := 0, scratch := [], trng := none, cmdLatch := 0,
          err := 6, done := true, fsm := .idle }

/-- R177: with `KEY_LEN != 32`, ENCRYPT and DECRYPT complete with ERR = 1, make no draw and leave OUT as it
was; the next state is the same whatever the key and the input are. -/
def Obligations.WrongKeyLengthIsRejected : Prop :=
  ∀ (i : Instr) (s : State), i = .encrypt ∨ i = .decrypt → s.keyLen ≠ 32 →
    wantsDraw s = false
    ∧ exec i s
      = .next { s with
          keyBuf := [], keyLen := 0, inBuf := [], inLen := 0, scratch := [], trng := none, cmdLatch := 0,
          err := 1, done := true, fsm := .idle }

/-- R178: a DECRYPT with `KEY_LEN = 32` whose text is valid base64 of fewer than 44 bytes gives ERR = 2; on
every legal BUF_SIZE such a text passes the length check. -/
def Obligations.ShortFrameIsMalformed : Prop :=
  ∀ (s : State) (f : Bytes), s.cfg.Legal → s.keyLen = 32 → b64dec (inputOperand s) = some f → f.length < 44 →
    exec .decrypt s
      = .next { s with
          keyBuf := [], keyLen := 0, inBuf := [], inLen := 0, scratch := [], trng := none, cmdLatch := 0,
          err := 2, done := true, fsm := .idle }

/-- R169: a completion with a nonzero code of a command in flight leaves OUT_BUF all zero and OUT_LEN 0, and
no read of the OUT window or of OUT_LEN gives anything but 0. -/
def Obligations.NoPlaintextOnFailure : Prop :=
  ∀ (i : Instr) (s t : State), BusyPublishesNothing s → s.fsm = .busy → exec i s = .next t → t.err ≠ 0 →
    t.outBuf = [] ∧ t.outLen = 0 ∧ (∀ a : Nat, Memory.read t.outBuf a = 0)
    ∧ hostRead t 0x01C = 0 ∧ ∀ off : Nat, 0x20000 ≤ off → hostRead t off = 0

/-- R167 corner cases and R89: a successful ENCRYPT leaves `OUT_LEN = b64len(N + 44)`, and the text is that
many characters of the alphabet and '=', a multiple of 4 and at least 60. -/
def Obligations.EncryptOutLenIsTheTextLength : Prop :=
  ∀ (s : State) (d : Vector Byte 28), s.cfg.Legal → s.keyLen = 32 →
    b64len (s.inLen.toNat + 44) ≤ s.cfg.bufSize → s.trng = some (.ok d) →
    ∃ t, exec .encrypt s = .next t ∧ t.err = 0
      ∧ t.outLen.toNat = 4 * ((s.inLen.toNat + 44 + 2) / 3)
      ∧ t.outLen.toNat % 4 = 0 ∧ 60 ≤ t.outLen.toNat
      ∧ ∀ a : Nat, a < t.outLen.toNat →
          Memory.read t.outBuf a = 0x3D ∨ (b64val (Memory.read t.outBuf a)).isSome = true

/-- R174: decrypting what ENCRYPT published, under the same key, gives the plaintext back, for every draw. -/
def Obligations.DecryptOfEncryptIsThePlaintext : Prop :=
  ∀ (s : State) (d : Vector Byte 28), s.cfg.Legal → s.keyLen = 32 →
    b64len (s.inLen.toNat + 44) ≤ s.cfg.bufSize → s.trng = some (.ok d) →
    ∃ t, exec .encrypt s = .next t ∧ t.err = 0
      ∧ ∀ s' : State, s'.cfg = s.cfg → s'.keyLen = 32 → keyOperand s' = keyOperand s → s'.inLen = t.outLen →
          inputOperand s' = Memory.slice t.outBuf 0 t.outLen.toNat →
          ∃ t', exec .decrypt s' = .next t' ∧ t'.err = 0 ∧ t'.outLen = s.inLen
            ∧ Memory.slice t'.outBuf 0 s.inLen.toNat = inputOperand s

/-- R175 (the salt case) and R123: two texts whose frames differ at most in the salt decrypt to the same
result: the same code, OUT_LEN and OUT bytes. -/
def Obligations.SaltIsNotRead : Prop :=
  ∀ (s s' : State) (f f' : Bytes), s.keyLen = 32 → s'.keyLen = 32 →
    s.inLen.toNat ≤ s.cfg.bufSize → s'.inLen.toNat ≤ s'.cfg.bufSize →
    keyOperand s' = keyOperand s → s'.outBuf = s.outBuf → s'.outLen = s.outLen →
    b64dec (inputOperand s) = some f → b64dec (inputOperand s') = some f' →
    f'.length = f.length → f'.drop 16 = f.drop 16 →
    ∃ t t', exec .decrypt s = .next t ∧ exec .decrypt s' = .next t'
      ∧ t'.err = t.err ∧ t'.outLen = t.outLen ∧ t'.outBuf = t.outBuf

/-- R175 (the tag case): a frame whose tag field is any 16 bytes but the tag gives ERR = 3. -/
def Obligations.ChangedTagIsDetected : Prop :=
  ∀ (s : State) (salt iv c t' : Bytes), s.keyLen = 32 → s.inLen.toNat ≤ s.cfg.bufSize →
    salt.length = 16 → iv.length = 12 → t'.length = 16 → t' ≠ gcmTag (keyOperand s) iv c →
    inputOperand s = b64enc (salt ++ iv ++ c ++ t') →
    exec .decrypt s
      = .next { s with
          keyBuf := [], keyLen := 0, inBuf := [], inLen := 0, scratch := [], trng := none, cmdLatch := 0,
          err := 3, done := true, fsm := .idle }

/-- R147 and R39: no command depends on a byte of IN_BUF at or beyond IN_LEN. -/
def Obligations.InputBeyondInLenIsIgnored : Prop :=
  ∀ (i : Instr) (s : State) (m : Memory), (∀ a < s.inLen.toNat, Memory.read m a = Memory.read s.inBuf a) →
    ¬(i = .encrypt ∧ encryptBody s = none) → exec i { s with inBuf := m } = exec i s

/-! The random source (42_trng.md R156-R160). -/

/-- R158: the source's answer is taken exactly when an ENCRYPT past its checks is in flight and unanswered,
so a command draws at most once; DECRYPT, WIPE and ILLEGAL do not depend on any answer, and no command
counts a draw of its own. -/
def Obligations.OnlyAnEncryptPastItsChecksDraws : Prop :=
  (∀ (a : TrngAnswer) (s : State),
    (s.fsm = .busy ∧ s.inReset = false ∧ s.cmdLatch = 0x00000001 ∧ s.keyLen = 32
        ∧ b64len (s.inLen.toNat + 44) ≤ s.cfg.bufSize ∧ s.trng = none →
      sourceAnswer a s = { s with trng := some a, draws := s.draws + 1 })
    ∧ (¬(s.fsm = .busy ∧ s.inReset = false ∧ s.cmdLatch = 0x00000001 ∧ s.keyLen = 32
        ∧ b64len (s.inLen.toNat + 44) ≤ s.cfg.bufSize ∧ s.trng = none) →
      sourceAnswer a s = s))
  ∧ (∀ (a b : TrngAnswer) (s : State), s.trng = none →
      sourceAnswer b (sourceAnswer a s) = sourceAnswer a s ∨ sourceAnswer a s = s)
  ∧ (∀ (i : Instr) (s : State) (x : Option TrngAnswer), i ≠ .encrypt → exec i { s with trng := x } = exec i s)
  ∧ ∀ (i : Instr) (s t : State), exec i s = .next t → t.draws = s.draws

/-- R159: on `Fail`, ENCRYPT completes with ERR = 4 and writes no output. -/
def Obligations.FailedDrawGivesCodeFour : Prop :=
  ∀ s : State, s.keyLen = 32 → b64len (s.inLen.toNat + 44) ≤ s.cfg.bufSize → s.trng = some .fail →
    exec .encrypt s
      = .next { s with
          keyBuf := [], keyLen := 0, inBuf := [], inLen := 0, scratch := [], trng := none, cmdLatch := 0,
          err := 4, done := true, fsm := .idle }

/-! The datapath (40_aes_gcm.md, 41_base64.md). -/

/-- R101, R102: the S-box table is the affine map of the inverse, on all 256 bytes. -/
def Obligations.SboxTableIsTheFormula : Prop :=
  (∀ a : Byte, sbox a = affine (gf8Inverse a))
  ∧ (∀ a : Byte, a ≠ 0 → gmul a (gf8Inverse a) = 1) ∧ gf8Inverse 0 = 0
  ∧ ∀ (b : Byte) (i : Fin 8), (affine b).getLsbD i.val
      = (b.getLsbD i.val ^^ b.getLsbD ((i.val + 4) % 8) ^^ b.getLsbD ((i.val + 5) % 8) ^^ b.getLsbD ((i.val + 6) % 8)
          ^^ b.getLsbD ((i.val + 7) % 8) ^^ (0x63 : Byte).getLsbD i.val)

/-- R110, R111: `0x80 || zeros(15)` is the 1 of GF(2^128), and 0 is its zero, on either side. -/
def Obligations.Gf128HasOneAndZero : Prop :=
  ∀ y : Bits128, gf128Mul 0x80000000000000000000000000000000 y = y
    ∧ gf128Mul y 0x80000000000000000000000000000000 = y ∧ gf128Mul 0 y = 0 ∧ gf128Mul y 0 = 0

/-- R114: inc32 adds 1 modulo 2^32 to the last four bytes, as a big-endian number, and changes no other. -/
def Obligations.Inc32CountsModulo32Bits : Prop :=
  ∀ x : Block, (blockBytes (inc32 x)).take 12 = (blockBytes x).take 12
    ∧ (colBits (inc32 x).c3).toNat = ((colBits x.c3).toNat + 1) % 2 ^ 32

/-- R115: GCTR keeps the length, and applied twice gives the sequence back. -/
def Obligations.GctrIsItsOwnInverse : Prop :=
  ∀ (k : Bytes) (icb : Block) (x : Bytes),
    (gctr k icb x).length = x.length ∧ gctr k icb (gctr k icb x) = x

/-- R119, corner case: an empty plaintext gives an empty ciphertext and the tag `AES256(K, J0)`. -/
def Obligations.EmptyPlaintextTag : Prop :=
  ∀ k iv : Bytes, gcmAE k iv [] = ([], blockBytes (aes256 k (preCounter iv)))

/-- R120 and the two laws of R121: GCM_AD undoes GCM_AE, and fails exactly on a tag that is not the tag. -/
def Obligations.GcmOpensWhatItSeals : Prop :=
  (∀ k iv p : Bytes, gcmAD k iv (gcmAE k iv p).1 (gcmAE k iv p).2 = some p)
  ∧ ∀ k iv c t' : Bytes, gcmAD k iv c t' = none ↔ t' ≠ gcmTag k iv c

/-- R140: the alphabet by its ASCII codes; `val` is its inverse, defined on exactly those 64 codes. -/
def Obligations.AlphabetAndItsInverse : Prop :=
  (∀ v : BitVec 6, (b64char v).toNat
      = if v.toNat < 26 then 0x41 + v.toNat
        else if v.toNat < 52 then 0x61 + (v.toNat - 26)
        else if v.toNat < 62 then 0x30 + (v.toNat - 52)
        else if v.toNat = 62 then 0x2B else 0x2F)
  ∧ (∀ v : BitVec 6, b64val (b64char v) = some v)
  ∧ (∀ (c : Byte) (v : BitVec 6), b64val c = some v → b64char v = c)
  ∧ b64val 0x3D = none ∧ b64val 0x2D = none ∧ b64val 0x5F = none

/-- R142: the length of a base64 text. -/
def Obligations.Base64TextLength : Prop :=
  (∀ b : Bytes, (b64enc b).length = b64len b.length ∧ b64len b.length = 4 * ((b.length + 2) / 3))
  ∧ b64len 44 = 60 ∧ b64len 45 = 60 ∧ b64len 46 = 64 ∧ b64len 47 = 64 ∧ b64len 49 = 68

/-- R143: validity, clause by clause; a valid text is the exact output of the encoder for exactly one byte
sequence. -/
def Obligations.ValidTextsAreTheEncodersOutputs : Prop :=
  (∀ s : Bytes, b64valid s = true ↔
      s.length % 4 = 0
      ∧ (∀ i < s.length - 2, (b64val (s.getD i 0)).isSome = true)
      ∧ (4 ≤ s.length →
          ((b64val (s.getD (s.length - 2) 0)).isSome = true ∧ (b64val (s.getD (s.length - 1) 0)).isSome = true)
          ∨ ((b64val (s.getD (s.length - 2) 0)).isSome = true ∧ s.getD (s.length - 1) 0 = 0x3D)
          ∨ (s.getD (s.length - 2) 0 = 0x3D ∧ s.getD (s.length - 1) 0 = 0x3D))
      ∧ (4 ≤ s.length → s.getD (s.length - 2) 0 = 0x3D → s.getD (s.length - 1) 0 = 0x3D →
          ∀ v, b64val (s.getD (s.length - 3) 0) = some v → v.toNat % 16 = 0)
      ∧ (4 ≤ s.length → s.getD (s.length - 2) 0 ≠ 0x3D → s.getD (s.length - 1) 0 = 0x3D →
          ∀ v, b64val (s.getD (s.length - 2) 0) = some v → v.toNat % 4 = 0))
  ∧ b64valid [] = true
  ∧ ∀ s : Bytes, b64valid s = true ↔ ∃! b : Bytes, b64enc b = s

/-- R146: decoding an encoding gives the bytes back, and a text that decodes is the encoding of what it
decodes to; so two valid texts never decode to the same bytes. -/
def Obligations.Base64IsCanonical : Prop :=
  (∀ b : Bytes, b64dec (b64enc b) = some b)
  ∧ (∀ s b : Bytes, b64dec s = some b → b64enc b = s)
  ∧ ∀ s s' b : Bytes, b64dec s = some b → b64dec s' = some b → s = s'

/-! Host accesses (20_memory.md R60-R73, 10_state.md R24-R40). -/

/-- R63: what a legal read returns at every offset, and that it changes no state; the response and nothing
else is written. -/
def Obligations.HostReadReturnsTheMap : Prop :=
  ∀ (s : State) (off : Nat), s.inReset = false → off % 4 = 0 → off < 0x30000 →
    (∃ v, readAt off s = { s with resp := .data v })
    ∧ (off = 0x000 → (readAt off s).resp = .data 0x41454144)
    ∧ (off = 0x004 → (readAt off s).resp = .data (BitVec.ofNat 32 s.cfg.bufSize))
    ∧ (off = 0x008 → (readAt off s).resp = .data (if s.ie then 1 else 0))
    ∧ (off = 0x00C → (readAt off s).resp
        = .data (s.err.setWidth 32 <<< 8 ||| (if s.accErr then 4 else 0) ||| (if s.done then 2 else 0)
            ||| (if s.fsm = .busy then 1 else 0)))
    ∧ (off = 0x014 → (readAt off s).resp = .data s.keyLen)
    ∧ (off = 0x018 → (readAt off s).resp = .data s.inLen)
    ∧ (off = 0x01C → (readAt off s).resp = .data s.outLen)
    ∧ (0x20000 ≤ off → off - 0x20000 < s.cfg.bufSize → (readAt off s).resp
        = .data ((Memory.read s.outBuf (off - 0x20000)).setWidth 32
            ||| (Memory.read s.outBuf (off - 0x20000 + 1)).setWidth 32 <<< 8
            ||| (Memory.read s.outBuf (off - 0x20000 + 2)).setWidth 32 <<< 16
            ||| (Memory.read s.outBuf (off - 0x20000 + 3)).setWidth 32 <<< 24))
    ∧ (0x20000 ≤ off → s.cfg.bufSize ≤ off - 0x20000 → (readAt off s).resp = .data 0)
    ∧ (off = 0x010 ∨ (0x020 ≤ off ∧ off < 0x20000) → (readAt off s).resp = .data 0)

/-- R32: a write to CMD, KEY_LEN, IN_LEN, the KEY window or the IN window while BUSY changes nothing but
ACCERR, which becomes 1; and only a STATUS write with bit 2 set, or reset, clears ACCERR. That this covers the
IN window at and beyond BUF_SIZE is the model's reading of R64 over R39 (log 13). -/
def Obligations.GuardedWriteWhileBusySetsStickyAccErr : Prop :=
  (∀ (s : State) (off : Nat) (v : Word), s.fsm = .busy → s.inReset = false → off % 4 = 0 →
    off = 0x010 ∨ off = 0x014 ∨ off = 0x018 ∨ (0x100 ≤ off ∧ off < 0x120) ∨ (0x10000 ≤ off ∧ off < 0x20000) →
    writeAt off v s = { s with accErr := true, resp := .written })
  ∧ ∀ s t : State, step s = .next t → s.accErr = true → t.accErr = false →
      nextTurn s = .reset ∨ nextTurn s = .holdReset
      ∨ (nextTurn s = .host ∧ ∃ (a : Access) (v : Word), a.kind = .write v ∧ v.getLsbD 2 = true
          ∧ a.addr = s.cfg.baseAddr + 0x00C ∧ t = { busAccess a (beginStep s) with prog := t.prog })

/-- R29: a STATUS write clears DONE on bit 1 and ACCERR on bit 2 and does nothing else, BUSY or not; bit by
bit, a read of STATUS. -/
def Obligations.StatusIsWriteOneToClear : Prop :=
  ∀ (s : State) (v : Word), s.inReset = false →
    writeAt 0x00C v s
      = { s with
          done := if v.getLsbD 1 then false else s.done
          accErr := if v.getLsbD 2 then false else s.accErr
          resp := .written }
    ∧ (statusWord s).getLsbD 0 = decide (s.fsm = .busy) ∧ (statusWord s).getLsbD 1 = s.done
    ∧ (statusWord s).getLsbD 2 = s.accErr ∧ (statusWord s).extractLsb' 8 4 = s.err
    ∧ (statusWord s).extractLsb' 3 5 = 0 ∧ (statusWord s).extractLsb' 12 20 = 0
    ∧ statusWord State.reset = 0

/-- R28: CTRL is IE in bit 0, not guarded; reserved bits are ignored and read 0. -/
def Obligations.CtrlHoldsTheInterruptEnable : Prop :=
  ∀ (s : State) (v : Word), s.inReset = false →
    writeAt 0x008 v s = { s with ie := v.getLsbD 0, resp := .written }
    ∧ (readAt 0x008 (writeAt 0x008 v s)).resp = .data (v &&& 1) ∧ State.reset.ie = false

/-- R35, R36: while IDLE, KEY_LEN and IN_LEN hold any written value and a read returns it. -/
def Obligations.LengthRegistersHoldWhatIsWritten : Prop :=
  ∀ (s : State) (v : Word), s.fsm = .idle → s.inReset = false →
    writeAt 0x014 v s = { s with keyLen := v, resp := .written }
    ∧ (readAt 0x014 (writeAt 0x014 v s)).resp = .data v
    ∧ writeAt 0x018 v s = { s with inLen := v, resp := .written }
    ∧ (readAt 0x018 (writeAt 0x018 v s)).resp = .data v

/-- R38: a word written to the KEY window sets the four key bytes, little-endian, and no other; the window
reads 0; every completion wipes the key. -/
def Obligations.KeyWindowWritesKeyBytes : Prop :=
  ∀ (s : State) (j : Nat) (v : Word), s.fsm = .idle → s.inReset = false → j < 8 →
    writeAt (0x100 + 4 * j) v s
      = { s with keyBuf := (writeAt (0x100 + 4 * j) v s).keyBuf, resp := .written }
    ∧ (∀ b < 4, Memory.read (writeAt (0x100 + 4 * j) v s).keyBuf (4 * j + b) = v.extractLsb' (8 * b) 8)
    ∧ (∀ a : Nat, a < 4 * j ∨ 4 * j + 4 ≤ a →
        Memory.read (writeAt (0x100 + 4 * j) v s).keyBuf a = Memory.read s.keyBuf a)
    ∧ (readAt (0x100 + 4 * j) (writeAt (0x100 + 4 * j) v s)).resp = .data 0
    ∧ ∀ (code : ErrCode) (out : Option Bytes), (finish code out s).keyBuf = []

/-- R39: a word written to the IN window while IDLE sets four input bytes, little-endian, and no other;
beyond BUF_SIZE the write is ignored and sets no flag; the window reads 0. -/
def Obligations.InWindowWritesInputBytes : Prop :=
  ∀ (s : State) (o : Nat) (v : Word), s.fsm = .idle → s.inReset = false → o % 4 = 0 → o < 0x10000 →
    (o < s.cfg.bufSize →
      writeAt (0x10000 + o) v s = { s with inBuf := (writeAt (0x10000 + o) v s).inBuf, resp := .written }
      ∧ (∀ b < 4, Memory.read (writeAt (0x10000 + o) v s).inBuf (o + b) = v.extractLsb' (8 * b) 8)
      ∧ ∀ a : Nat, a < o ∨ o + 4 ≤ a →
          Memory.read (writeAt (0x10000 + o) v s).inBuf a = Memory.read s.inBuf a)
    ∧ (s.cfg.bufSize ≤ o → writeAt (0x10000 + o) v s = { s with resp := .written })
    ∧ (readAt (0x10000 + o) s).resp = .data 0

/-- R25 and the read-only registers of R24 (ID, CAPS, OUT_LEN, the OUT window): a write changes no state and
sets no flag, BUSY or not; a reserved offset reads 0. -/
def Obligations.WritesToReservedAndReadOnlyOffsetsAreIgnored : Prop :=
  ∀ (s : State) (off : Nat) (v : Word), s.inReset = false → off % 4 = 0 → off < 0x30000 →
    (off = 0x000 ∨ off = 0x004 ∨ off = 0x01C ∨ (0x020 ≤ off ∧ off < 0x100) ∨ (0x120 ≤ off ∧ off < 0x10000)
        ∨ 0x20000 ≤ off →
      writeAt off v s = { s with resp := .written })
    ∧ ((0x020 ≤ off ∧ off < 0x100) ∨ (0x120 ≤ off ∧ off < 0x10000) → (readAt off s).resp = .data 0)

/-- R62: an access that is not 32 bits wide, or not at a multiple of 4, is a bus error: no state changes, no
flag is set, and its data is 0. That it answers so while reset is held too is the model's choice (log 9). -/
def Obligations.IllegalAccessIsABusError : Prop :=
  ∀ (s : State) (a : Access), s.cfg.baseAddr ≤ a.addr → a.addr < s.cfg.baseAddr + 0x30000 →
    a.size ≠ .word ∨ (a.addr - s.cfg.baseAddr) % 4 ≠ 0 →
    busAccess a s = { s with resp := .busError } ∧ respData (busAccess a s).resp = 0

/-- R60: an access outside the aperture does not reach the block: no state changes. -/
def Obligations.AccessOutsideTheApertureDoesNotReach : Prop :=
  ∀ (s : State) (a : Access), a.addr < s.cfg.baseAddr ∨ s.cfg.baseAddr + 0x30000 ≤ a.addr →
    busAccess a s = { s with resp := .notReached }

/-- R70: while BUSY, OUT_LEN and every word of the OUT window read 0. -/
def Obligations.OutReadsZeroWhileBusy : Prop :=
  ∀ (s : State) (off : Nat), Invariant s → s.fsm = .busy → off % 4 = 0 → off < 0x30000 →
    off = 0x01C ∨ 0x20000 ≤ off → (readAt off s).resp = .data 0

/-! Whole-machine rules. -/

/-- Every step of the machine is one agent's turn and answers a next state: AEADC takes no trap (60
R187, R192; log 12). -/
def Obligations.StepAlwaysAnswersNext : Prop := ∀ s : State, ∃ t, step s = .next t

/-- R83, R166: with a command in flight and reset not held, the engine's turn runs the command that
cmd_latch decodes to, in the state in which the schedule has moved on and the bus is silent; when the
schedule is over it is the engine's turn if the completion is enabled (log 4, the model's choice). -/
def Obligations.StepRunsTheDecodedCommand : Prop :=
  ∀ (s : State) (i : Instr), s.fsm = .busy → s.inReset = false → decode s.cmdLatch = i →
    (∀ rest : List Turn, s.sched = .engine :: rest → step s = exec i { s with sched := rest, resp := .none })
    ∧ (s.sched = [] → completionEnabled s = true → step s = exec i { s with resp := .none })

/-- The model's own placing of a command (log 11): the next step runs it, in the state its acceptance
leaves. -/
def Obligations.PlacedCommandRunsNext : Prop :=
  ∀ (s : State) (nbits w : Nat) (i : Instr), decodeTableWord nbits w = some i →
    step (s.withFetchWord nbits w)
      = exec i { accept (BitVec.ofNat 32 (w % 2 ^ nbits)) s with inReset := false, resp := .none }

/-- R22: fsm moves IDLE to BUSY only by the acceptance of a CMD write, a 32-bit write of the host at offset
0x010, and BUSY to IDLE only by a completion or reset; no host access moves BUSY to IDLE. -/
def Obligations.SequencerMovesOnlyAsListed : Prop :=
  ∀ s t : State, step s = .next t →
    (s.fsm = .idle → t.fsm = .busy →
      nextTurn s = .host ∧ ∃ (a : Access) (v : Word), a.size = .word ∧ a.kind = .write v
        ∧ a.addr = s.cfg.baseAddr + 0x010 ∧ t = { busAccess a (beginStep s) with prog := t.prog }
        ∧ t = { accept v (beginStep s) with prog := t.prog, resp := .written })
    ∧ (s.fsm = .busy → t.fsm = .idle →
      (nextTurn s = .engine ∧ exec (decode s.cmdLatch) (beginStep s) = .next t)
      ∨ nextTurn s = .reset ∨ nextTurn s = .holdReset)

/-- R31: DONE becomes 1 only by a completion, and 0 only by a STATUS write with bit 1 set (a 32-bit write of the
host at offset 0x00C), an acceptance (one at offset 0x010), or reset; every completion sets it. -/
def Obligations.DoneChangesOnlyAsListed : Prop :=
  (∀ (code : ErrCode) (out : Option Bytes) (s : State), (finish code out s).done = true)
  ∧ ∀ s t : State, step s = .next t →
    (s.done = false → t.done = true →
      nextTurn s = .engine ∧ exec (decode s.cmdLatch) (beginStep s) = .next t)
    ∧ (s.done = true → t.done = false →
      nextTurn s = .reset ∨ nextTurn s = .holdReset
      ∨ (nextTurn s = .host ∧ ∃ (a : Access) (v : Word), a.size = .word ∧ a.kind = .write v
          ∧ t = { busAccess a (beginStep s) with prog := t.prog }
          ∧ ((a.addr = s.cfg.baseAddr + 0x010
              ∧ t = { accept v (beginStep s) with prog := t.prog, resp := .written })
            ∨ (a.addr = s.cfg.baseAddr + 0x00C ∧ v.getLsbD 1 = true
              ∧ t = { acknowledge v (beginStep s) with prog := t.prog, resp := .written }))))

/-- R73: while a command is in flight no step changes its operands, nor OUT, nor cmd_latch. -/
def Obligations.OperandsAreFrozenWhileBusy : Prop :=
  ∀ s t : State, step s = .next t → s.fsm = .busy → t.fsm = .busy →
    t.keyBuf = s.keyBuf ∧ t.keyLen = s.keyLen ∧ t.inBuf = s.inBuf ∧ t.inLen = s.inLen
    ∧ t.cmdLatch = s.cmdLatch ∧ t.outBuf = s.outBuf ∧ t.outLen = s.outLen

/-- No step changes BUF_SIZE or BASE_ADDR: they are parameters (R8, R20). -/
def Obligations.ParametersNeverChange : Prop := ∀ s t : State, step s = .next t → t.cfg = s.cfg

/-- R44: in any number of host turns, states that differ only in KEY_BUF, IN_BUF, scratch, cmd_latch and the
draw stay alike, the bus's responses among them: the host reads no byte of a secret. -/
def Obligations.HostReadsNoSecret : Prop :=
  ∀ (k : Nat) (s t : State), SameToHost s t → SameToHost (hostTurns k s) (hostTurns k t)

/-- The invariant of the machine is kept by every step, from every state that meets it. -/
def Obligations.EveryStepKeepsTheInvariant : Prop :=
  ∀ s t : State, Invariant s → step s = .next t → Invariant t

/-- The invariant holds right after reset. -/
def Obligations.InvariantHoldsAtReset : Prop := Invariant State.reset

/-- R47, R205, R207: after `@RESET`, or when reset is asserted and held, every component has its reset value,
whatever the state was, and irq is 0; the parameters, the host program and the schedule stay (log 9). While
reset is held a legal read returns 0, a legal write has no effect, and the engine completes nothing. -/
def Obligations.ResetSetsEveryComponent : Prop :=
  ∀ (s : State) (rest : List Turn),
    (s.sched = .reset :: rest →
      step s
        = .next { s with
            fsm := .idle, cmdLatch := 0, ie := false, done := false, accErr := false, err := 0, keyLen := 0,
            inLen := 0, outLen := 0, keyBuf := [], inBuf := [], outBuf := [], scratch := [], trng := none,
            inReset := false, sched := rest, resp := .none })
    ∧ (s.sched = .holdReset :: rest →
      step s
        = .next { s with
            fsm := .idle, cmdLatch := 0, ie := false, done := false, accErr := false, err := 0, keyLen := 0,
            inLen := 0, outLen := 0, keyBuf := [], inBuf := [], outBuf := [], scratch := [], trng := none,
            inReset := true, sched := rest, resp := .none })
    ∧ irq (resetTurn s) = false
    ∧ (s.inReset = true →
      (∀ (off : Nat) (v : Word), off % 4 = 0 → off < 0x30000 →
        readAt off s = { s with resp := .data 0 } ∧ writeAt off v s = { s with resp := .written })
      ∧ (s.sched = .engine :: rest → step s = .next { s with sched := rest, resp := .none }))

/-- R41, R188: `irq = DONE AND IE`: a completion asserts it when IE is 1, and clearing DONE or IE deasserts
it. -/
def Obligations.InterruptLineIsDoneAndEnable : Prop :=
  ∀ (s : State) (v : Word), irq s = (s.done && s.ie)
    ∧ (∀ (code : ErrCode) (out : Option Bytes), irq (finish code out s) = s.ie)
    ∧ (s.inReset = false → v.getLsbD 1 = true → irq (writeAt 0x00C v s) = false)
    ∧ (s.inReset = false → v.getLsbD 0 = false →
        irq (writeAt 0x008 v s) = false ∧ (writeAt 0x008 v s).done = s.done)

/-- R192 and R72: a STATUS write and a guarded write, each racing a completion, in both orders. The STATUS write
before it clears the old DONE, and the completion's DONE stays; after it, it clears the new one. A guarded
write of any value, at any guarded offset, before it is ignored with ACCERR and the completion is the same;
after it, it takes effect in IDLE. In either order the code and the result are the completion's, but for a CMD
write after it, which is the next acceptance. That a write beyond BUF_SIZE in the IN window sets ACCERR while
BUSY is the model's reading (log 13). -/
def Obligations.RacesHaveBothOrders : Prop :=
  ∀ (s t : State) (i : Instr), s.fsm = .busy → s.inReset = false → exec i s = .next t → t.fsm = .idle →
    t.done = true
    ∧ (∀ v : Word,
      exec i (writeAt 0x00C v s)
          = .next { t with accErr := if v.getLsbD 2 then false else t.accErr, resp := .written }
      ∧ writeAt 0x00C v t
          = { t with
              done := if v.getLsbD 1 then false else true
              accErr := if v.getLsbD 2 then false else t.accErr
              resp := .written })
    ∧ (∀ (off : Nat) (w : Word), off % 4 = 0 →
        off = 0x010 ∨ off = 0x014 ∨ off = 0x018 ∨ (0x100 ≤ off ∧ off < 0x120) ∨ (0x10000 ≤ off ∧ off < 0x20000) →
      exec i (writeAt off w s) = .next { t with accErr := true, resp := .written }
      ∧ (off = 0x010 → writeAt off w t
          = { t with cmdLatch := w, outBuf := [], outLen := 0, err := 0, done := false, fsm := .busy, resp := .written })
      ∧ (off = 0x014 → writeAt off w t = { t with keyLen := w, resp := .written })
      ∧ (off = 0x018 → writeAt off w t = { t with inLen := w, resp := .written })
      ∧ (0x100 ≤ off → off < 0x120 →
          writeAt off w t = { t with keyBuf := Memory.writeWord t.keyBuf (off - 0x100) w, resp := .written })
      ∧ (0x10000 ≤ off → off - 0x10000 < t.cfg.bufSize →
          writeAt off w t = { t with inBuf := Memory.writeWord t.inBuf (off - 0x10000) w, resp := .written })
      ∧ (0x10000 ≤ off → t.cfg.bufSize ≤ off - 0x10000 → writeAt off w t = { t with resp := .written }))

/-! Host programs (30_encoding.md R92-R96). -/

/-- R94: the nine accesses of `LOADKEY k`, issued while IDLE, leave the key k and `KEY_LEN = 32`. -/
def Obligations.LoadKeyLoadsTheKey : Prop :=
  ∀ (s : State) (k : Bytes) (n : Word) (rest : List HostOp), s.fsm = .idle → s.inReset = false → k.length = 32 →
    s.prog = loadKey k n ++ rest →
    keyOperand (hostTurns 9 s) = k ∧ (hostTurns 9 s).keyLen = n ∧ (hostTurns 9 s).prog = rest
    ∧ (hostTurns 9 s).inBuf = s.inBuf ∧ (hostTurns 9 s).inLen = s.inLen ∧ (hostTurns 9 s).fsm = .idle

/-- R95: the accesses of `LOADIN d`, issued while IDLE, leave the input d. -/
def Obligations.LoadInLoadsTheInput : Prop :=
  ∀ (s : State) (d : Bytes) (rest : List HostOp), s.cfg.Legal → s.fsm = .idle → s.inReset = false →
    d.length ≤ s.cfg.bufSize → s.prog = loadIn d ++ rest →
    inputOperand (hostTurns ((d.length + 3) / 4 + 1) s) = d
    ∧ (hostTurns ((d.length + 3) / 4 + 1) s).inLen.toNat = d.length
    ∧ (hostTurns ((d.length + 3) / 4 + 1) s).prog = rest
    ∧ (hostTurns ((d.length + 3) / 4 + 1) s).keyBuf = s.keyBuf
    ∧ (hostTurns ((d.length + 3) / 4 + 1) s).keyLen = s.keyLen

/-- R96: the host turn of READOUT reads OUT_LEN and puts the reads of `ceil(n / 4)` OUT words in its place; the
turns of those reads give the words whose first n bytes are the first n bytes of OUT_BUF, after which the
program goes on with what stood behind READOUT, and nothing but the program and the response has changed. For
any n the bytes of that many OUT words are those of OUT_BUF. R210, steps 5 to 7 (log 19 for their form): a
result is read out after a read of STATUS only when ERR = 0, and a wait for irq ends exactly when DONE and IE
are 1. -/
def Obligations.ReadoutGivesTheResult : Prop :=
  (∀ (s : State) (n : Nat), n ≤ s.cfg.bufSize → s.cfg.Legal →
    readoutBytes n ((List.range ((n + 3) / 4)).map fun i => hostRead s (0x20000 + 4 * i))
      = Memory.slice s.outBuf 0 n)
  ∧ (∀ (s : State) (n : Nat) (rest : List HostOp), s.cfg.Legal → s.inReset = false → n = s.outLen.toNat →
    n ≤ s.cfg.bufSize → s.prog = .readout :: rest →
    hostTurn s
      = { s with
          resp := .data s.outLen
          prog := ((List.range ((n + 3) / 4)).map fun i => .read (0x20000 + 4 * i)) ++ rest }
    ∧ (∀ i < (n + 3) / 4, (hostTurns (i + 2) s).resp = .data (hostRead s (0x20000 + 4 * i)))
    ∧ readoutBytes n ((List.range ((n + 3) / 4)).map fun i => respData (hostTurns (i + 2) s).resp)
      = Memory.slice s.outBuf 0 n
    ∧ hostTurns ((n + 3) / 4 + 1) s
      = { s with resp := (hostTurns ((n + 3) / 4 + 1) s).resp, prog := rest })
  ∧ (∀ (s : State) (rest : List HostOp), s.inReset = false → s.prog = .takeResult :: rest →
    hostTurn s
      = { s with resp := .data (statusWord s), prog := if s.err = 0 then .readout :: rest else rest })
  ∧ ∀ (s : State) (rest : List HostOp), s.prog = .waitIrq :: rest →
    (s.done = true ∧ s.ie = true → hostTurn s = { s with prog := rest })
    ∧ (¬(s.done = true ∧ s.ie = true) → hostTurn s = s)

/-- R92: a POLL whose test fails is repeated, and one whose test holds is over; either way it is one read. -/
def Obligations.PollRepeatsUntilItsTestHolds : Prop :=
  ∀ (s : State) (off : Nat) (mask val : Word) (rest : List HostOp), s.inReset = false → off % 4 = 0 →
    off < 0x30000 → s.prog = .poll off mask val :: rest →
    (hostRead s off &&& mask = val →
      hostTurn s = { s with resp := .data (hostRead s off), prog := rest })
    ∧ (hostRead s off &&& mask ≠ val → hostTurn s = { s with resp := .data (hostRead s off) })
end

