-- ==== Sys2Proof/Laws/Datapath.lean ====
section
/-! SUPPORT. The lengths and shapes of the datapath's byte sequences (40_aes_gcm.md, 41_base64.md, 30_encoding.md). -/

namespace Sys2Proof.Machine

@[simp] theorem blockBytes_length (x : Block) : (blockBytes x).length = 16 := rfl

@[simp] theorem xorBytes_length (a b : Bytes) : (xorBytes a b).length = min a.length b.length := by
  simp [xorBytes]

/-- XOR with the same bytes twice gives the sequence back, as far as they reach. -/
theorem xorBytes_xorBytes (a b : Bytes) (h : a.length ≤ b.length) : xorBytes (xorBytes a b) b = a := by
  apply List.ext_getElem?
  intro i
  simp only [xorBytes, List.getElem?_zipWith]
  by_cases hi : i < a.length
  · have hb : i < b.length := by omega
    simp [hi, hb]
  · simp [List.getElem?_eq_none (Nat.le_of_not_lt hi)]

@[simp] theorem gcmTag_length (k iv c : Bytes) : (gcmTag k iv c).length = 16 := rfl

@[simp] theorem be64_length (n : Nat) : (be64 n).length = 8 := rfl

@[simp] theorem zeros_length (n : Nat) : (zeros n).length = n := by simp [zeros]

/-- The GHASH input of a tag is a whole number of blocks (40_aes_gcm.md R113, R118). -/
theorem tagInput_length_mod (c : Bytes) : (tagInput c).length % 16 = 0 := by
  simp [tagInput]; omega

@[simp] theorem drawSalt_length (d : Vector Byte 28) : (drawSalt d).length = 16 := by
  simp [drawSalt, Config.saltBytes]

@[simp] theorem drawIv_length (d : Vector Byte 28) : (drawIv d).length = 12 := by
  simp [drawIv, Config.saltBytes]

@[simp] theorem buildFrame_length (salt iv c t : Bytes) :
    (buildFrame salt iv c t).length = salt.length + iv.length + c.length + t.length := by
  simp [buildFrame, Nat.add_assoc]

/-- The IV of a built frame (30_encoding.md R86, R87). -/
theorem frameIv_buildFrame {salt iv : Bytes} (c t : Bytes) (hs : salt.length = 16) (hi : iv.length = 12) :
    frameIv (buildFrame salt iv c t) = iv := by
  simp [frameIv, buildFrame, Config.saltBytes, Config.ivBytes, ← hs, ← hi]

/-- The tag of a built frame (30_encoding.md R86, R87). -/
theorem frameTag_buildFrame {t : Bytes} (salt iv c : Bytes) (ht : t.length = 16) :
    frameTag (buildFrame salt iv c t) = t := by
  have h : (buildFrame salt iv c t).length - Config.tagBytes = (salt ++ iv ++ c).length := by
    simp [Config.tagBytes, ht]; omega
  rw [frameTag, h, buildFrame]
  simp

/-- The ciphertext of a built frame (30_encoding.md R86, R87). -/
theorem frameCiphertext_buildFrame {salt iv t : Bytes} (c : Bytes) (hs : salt.length = 16)
    (hi : iv.length = 12) (ht : t.length = 16) : frameCiphertext (buildFrame salt iv c t) = c := by
  have h1 : (salt ++ iv).length = Config.drawBytes := by simp [hs, hi]
  have h2 : (buildFrame salt iv c t).length - Config.frameOverhead = c.length := by
    simp [hs, hi, ht, Config.frameOverhead]
  rw [frameCiphertext, h2, buildFrame, ← h1, List.append_assoc, List.drop_left, List.take_left]

end Sys2Proof.Machine
end

