-- ==== Sys2Proof/Laws/Memory.lean ====
section
/-! SUPPORT. The laws of buffer memory: read after write, slices, and that every operation keeps the canonical form and the bounds. -/

namespace Sys2Proof.Machine

@[simp] theorem memory_read_nil (a : Nat) : Memory.read [] a = 0 := rfl

@[simp] theorem memory_read_cons (c : Host.Cell) (m : Memory) (a : Nat) :
    Memory.read (c :: m) a = if c.1 = a then c.2 else Memory.read m a := rfl

theorem memory_read_put (m : Memory) (a b : Nat) (v : Byte) :
    Memory.read (Memory.put m a v) b = if b = a then v else Memory.read m b := by
  induction m with
  | nil => simp [Memory.put, eq_comm]
  | cons c m ih =>
    obtain ⟨k, w⟩ := c
    by_cases hlt : a < k
    · simp [Memory.put, hlt, eq_comm]
    · by_cases heq : a = k
      · subst heq
        by_cases hb : b = a <;> simp [Memory.put, hb]
        simp [Ne.symm hb]
      · by_cases hb : b = a
        · subst hb; simp [Memory.put, hlt, heq, ih, Ne.symm heq]
        · simp [Memory.put, hlt, heq, ih, hb]

theorem memory_read_filter (m : Memory) (a b : Nat) :
    Memory.read (m.filter fun c => c.1 != a) b = if b = a then 0 else Memory.read m b := by
  induction m with
  | nil => simp
  | cons c m ih =>
    obtain ⟨k, w⟩ := c
    by_cases hk : k = a
    · subst hk
      by_cases hb : b = k
      · subst hb; simpa using ih
      · simp [ih, hb, Ne.symm hb]
    · by_cases hb : b = a
      · subst hb; simp [hk, ih]
      · simp [hk, ih, hb]

/-- Reading after one write, at every address: the law of memory. -/
@[simp] theorem memory_read_write (m : Memory) (a b : Nat) (v : Byte) :
    Memory.read (Memory.write m a v) b = if b = a then v else Memory.read m b := by
  unfold Memory.write
  split
  next h => rw [memory_read_filter, h]
  next => rw [memory_read_put]

/-- Reading after a write of bytes, at every address. -/
theorem memory_read_writeBytes (m : Memory) (bs : Bytes) (a b : Nat) :
    Memory.read (Memory.writeBytes m a bs) b
      = if a ≤ b ∧ b < a + bs.length then bs.getD (b - a) 0 else Memory.read m b := by
  induction bs generalizing a with
  | nil => simp [Memory.writeBytes]
  | cons x xs ih =>
    simp only [Memory.writeBytes, memory_read_write, ih, List.length_cons]
    by_cases h : b = a
    · subst h; simp
    · by_cases h2 : a + 1 ≤ b ∧ b < a + 1 + xs.length
      · have h3 : a ≤ b ∧ b < a + (xs.length + 1) := by omega
        have h4 : b - a = (b - (a + 1)) + 1 := by omega
        simp [h, h2, h3, h4]
      · have h3 : ¬(a ≤ b ∧ b < a + (xs.length + 1)) := by omega
        rw [if_neg h, if_neg h2, if_neg h3]

@[simp] theorem memory_slice_length (m : Memory) (a n : Nat) : (Memory.slice m a n).length = n := by
  induction n generalizing a with
  | zero => rfl
  | succ n ih => simp [Memory.slice, ih]

theorem memory_slice_getElem? (m : Memory) (a n i : Nat) :
    (Memory.slice m a n)[i]? = if i < n then some (Memory.read m (a + i)) else none := by
  induction n generalizing a i with
  | zero => simp [Memory.slice]
  | succ n ih =>
    cases i with
    | zero => simp [Memory.slice]
    | succ i => simp [Memory.slice, ih, Nat.add_assoc, Nat.add_comm 1 i]

/-- Two memories that read alike on a range have the same slice of it. -/
theorem memory_slice_congr {m m' : Memory} {a n : Nat}
    (h : ∀ i < n, Memory.read m (a + i) = Memory.read m' (a + i)) :
    Memory.slice m a n = Memory.slice m' a n := by
  apply List.ext_getElem?
  intro i
  rw [memory_slice_getElem?, memory_slice_getElem?]
  split
  next hi => rw [h i hi]
  next => rfl

/-- The slice of bytes just written is those bytes. -/
theorem memory_slice_writeBytes (m : Memory) (a : Nat) (bs : Bytes) :
    Memory.slice (Memory.writeBytes m a bs) a bs.length = bs := by
  apply List.ext_getElem?
  intro i
  rw [memory_slice_getElem?]
  split
  next hi =>
    have h : a ≤ a + i ∧ a + i < a + bs.length := by omega
    simp [memory_read_writeBytes, h, hi]
  next hi => simp [List.getElem?_eq_none (Nat.le_of_not_lt hi)]

theorem memory_mem_put {m : Memory} {a : Nat} {v : Byte} {c : Host.Cell} (h : c ∈ Memory.put m a v) :
    c = (a, v) ∨ c ∈ m := by
  induction m with
  | nil => simpa [Memory.put] using h
  | cons d m ih =>
    obtain ⟨k, w⟩ := d
    unfold Memory.put at h
    split at h
    · simpa using h
    · split at h
      · rcases List.mem_cons.1 h with h | h
        · exact .inl h
        · exact .inr (List.mem_cons_of_mem _ h)
      · rcases List.mem_cons.1 h with h | h
        · exact .inr (h ▸ List.mem_cons_self)
        · exact (ih h).imp id (List.mem_cons_of_mem _)

/-- A cell of the memory after a write is the written one or an old one. -/
theorem memory_mem_write {m : Memory} {a : Nat} {v : Byte} {c : Host.Cell} (h : c ∈ Memory.write m a v) :
    c = (a, v) ∨ c ∈ m := by
  unfold Memory.write at h
  split at h
  · exact .inr (List.mem_filter.1 h).1
  · exact memory_mem_put h

theorem memory_wf_iff (m : Memory) :
    Memory.wf m = true ↔ (m.Pairwise fun c d => c.1 < d.1) ∧ ∀ c ∈ m, c.2 ≠ 0 := by
  simp [Memory.wf]

theorem memory_put_pairwise {m : Memory} {a : Nat} {v : Byte}
    (h : m.Pairwise fun c d => c.1 < d.1) : (Memory.put m a v).Pairwise fun c d => c.1 < d.1 := by
  induction m with
  | nil => simp [Memory.put]
  | cons d m ih =>
    obtain ⟨k, w⟩ := d
    obtain ⟨hk, hm⟩ := List.pairwise_cons.1 h
    unfold Memory.put
    split
    next hlt =>
      refine List.pairwise_cons.2 ⟨?_, h⟩
      intro c hc
      rcases List.mem_cons.1 hc with rfl | hc
      · exact hlt
      · exact Nat.lt_trans hlt (hk c hc)
    next hlt =>
      split
      next heq => subst heq; exact List.pairwise_cons.2 ⟨hk, hm⟩
      next hne =>
        refine List.pairwise_cons.2 ⟨?_, ih hm⟩
        intro c hc
        rcases memory_mem_put hc with rfl | hc
        · show k < a; omega
        · exact hk c hc

/-- A write keeps the canonical form. -/
theorem memory_wf_write {m : Memory} (a : Nat) (v : Byte) (h : Memory.wf m = true) :
    Memory.wf (Memory.write m a v) = true := by
  rw [memory_wf_iff] at h ⊢
  refine ⟨?_, ?_⟩
  · unfold Memory.write
    split
    · exact h.1.filter _
    · exact memory_put_pairwise h.1
  · intro c hc
    unfold Memory.write at hc
    split at hc
    · exact h.2 c (List.mem_filter.1 hc).1
    next hv =>
      rcases memory_mem_put hc with rfl | hc
      · exact hv
      · exact h.2 c hc

/-- A write of bytes keeps the canonical form. -/
theorem memory_wf_writeBytes {m : Memory} (a : Nat) (bs : Bytes) (h : Memory.wf m = true) :
    Memory.wf (Memory.writeBytes m a bs) = true := by
  induction bs generalizing a with
  | nil => exact h
  | cons b bs ih => exact memory_wf_write a b (ih (a + 1))

/-- A write of a word keeps the canonical form. -/
theorem memory_wf_writeWord {m : Memory} (a : Nat) (v : Word) (h : Memory.wf m = true) :
    Memory.wf (Memory.writeWord m a v) = true :=
  memory_wf_writeBytes a _ h

@[simp] theorem memory_wf_nil : Memory.wf [] = true := rfl

@[simp] theorem memory_within_nil (n : Nat) : Memory.within n [] = true := rfl

theorem memory_within_iff (n : Nat) (m : Memory) : Memory.within n m = true ↔ ∀ c ∈ m, c.1 < n := by
  simp [Memory.within]

/-- A write inside the bound keeps the bound. -/
theorem memory_within_write {n : Nat} {m : Memory} {a : Nat} (v : Byte) (h : Memory.within n m = true)
    (ha : a < n) : Memory.within n (Memory.write m a v) = true := by
  rw [memory_within_iff] at h ⊢
  intro c hc
  rcases memory_mem_write hc with rfl | hc
  · exact ha
  · exact h c hc

/-- A write of bytes inside the bound keeps the bound. -/
theorem memory_within_writeBytes {n : Nat} {m : Memory} {a : Nat} {bs : Bytes}
    (h : Memory.within n m = true) (ha : a + bs.length ≤ n) :
    Memory.within n (Memory.writeBytes m a bs) = true := by
  induction bs generalizing a with
  | nil => exact h
  | cons b bs ih =>
    simp only [List.length_cons] at ha
    exact memory_within_write b (ih (by omega)) (by omega)

/-- Beyond the bound a memory reads 0. -/
theorem memory_read_of_within {n : Nat} {m : Memory} {a : Nat} (h : Memory.within n m = true) (ha : n ≤ a) :
    Memory.read m a = 0 := by
  rw [memory_within_iff] at h
  induction m with
  | nil => rfl
  | cons c m ih =>
    have hc := h c List.mem_cons_self
    rw [memory_read_cons, if_neg (by omega), ih fun d hd => h d (List.mem_cons_of_mem _ hd)]

@[simp] theorem wordBytes_length (v : Word) : (wordBytes v).length = 4 := rfl

/-- A word is the word of its own bytes (20_memory.md R65). -/
theorem wordOfBytes_wordBytes (v : Word) :
    wordOfBytes (v.extractLsb' 0 8) (v.extractLsb' 8 8) (v.extractLsb' 16 8) (v.extractLsb' 24 8) = v := by
  unfold wordOfBytes
  ext i hi
  simp only [BitVec.getElem_or, BitVec.getElem_setWidth, BitVec.getElem_shiftLeft, BitVec.getLsbD_extractLsb']
  have hv : v[i] = v.getLsbD i := by simp [hi]
  rw [hv]
  by_cases h1 : i < 8
  · simp [h1, show i < 16 by omega, show i < 24 by omega]
  · by_cases h2 : i < 16
    · simp [h1, h2, show i < 24 by omega, show i - 8 < 8 by omega, show 8 + (i - 8) = i by omega]
    · by_cases h3 : i < 24
      · simp [h1, h2, h3, show ¬ i - 8 < 8 by omega, show i - 16 < 8 by omega,
          show 16 + (i - 16) = i by omega]
      · simp [h1, h2, h3, show ¬ i - 8 < 8 by omega, show ¬ i - 16 < 8 by omega,
          show i - 24 < 8 by omega, show 24 + (i - 24) = i by omega]

/-- The bytes of the word of four bytes are those bytes (20_memory.md R63, R65). -/
theorem wordBytes_wordOfBytes (b0 b1 b2 b3 : Byte) : wordBytes (wordOfBytes b0 b1 b2 b3) = [b0, b1, b2, b3] := by
  simp only [wordBytes, wordOfBytes, List.cons.injEq, and_true]
  refine ⟨?_, ?_, ?_, ?_⟩ <;> ext i hi <;>
    simp only [BitVec.getElem_extractLsb', BitVec.getLsbD_or, BitVec.getLsbD_setWidth, BitVec.getLsbD_shiftLeft]
  · simp [hi, show i < 32 by omega, show i < 16 by omega, show i < 24 by omega]
  · simp [show 8 + i < 32 by omega, show 8 + i < 16 by omega, show 8 + i < 24 by omega, show i < 32 by omega, hi,
      BitVec.getLsbD_of_ge]
  · simp [show 16 + i < 32 by omega, show 16 + i < 24 by omega, show 16 + i - 8 = 8 + i by omega,
      show i < 32 by omega, hi, BitVec.getLsbD_of_ge b0 (16 + i) (by omega)]
  · simp [show 24 + i < 32 by omega, show 24 + i - 8 = 16 + i by omega, show 24 + i - 16 = 8 + i by omega,
      show i < 32 by omega, hi, BitVec.getLsbD_of_ge b0 (24 + i) (by omega),
      BitVec.getLsbD_of_ge b1 (16 + i) (by omega)]

/-- The bytes of a word of a buffer. -/
theorem wordBytes_readWord (m : Memory) (o : Nat) :
    wordBytes (Memory.readWord m o)
      = [Memory.read m o, Memory.read m (o + 1), Memory.read m (o + 2), Memory.read m (o + 3)] :=
  wordBytes_wordOfBytes _ _ _ _

end Sys2Proof.Machine
end

