-- ==== Sys2Proof/Laws/State.lean ====
section
/-! SUPPORT. What each update of State does to each field, true by rfl or by the cases of the update. -/

namespace Sys2Proof.Machine

/-! Acceptance (43_commands.md R165). -/

@[simp] theorem accept_cfg (v : Word) (s : State) :
    (accept v s).cfg = s.cfg := rfl

@[simp] theorem accept_fsm (v : Word) (s : State) :
    (accept v s).fsm = .busy := rfl

@[simp] theorem accept_cmdLatch (v : Word) (s : State) :
    (accept v s).cmdLatch = v := rfl

@[simp] theorem accept_ie (v : Word) (s : State) :
    (accept v s).ie = s.ie := rfl

@[simp] theorem accept_done (v : Word) (s : State) :
    (accept v s).done = false := rfl

@[simp] theorem accept_accErr (v : Word) (s : State) :
    (accept v s).accErr = s.accErr := rfl

@[simp] theorem accept_err (v : Word) (s : State) :
    (accept v s).err = 0 := rfl

@[simp] theorem accept_keyLen (v : Word) (s : State) :
    (accept v s).keyLen = s.keyLen := rfl

@[simp] theorem accept_inLen (v : Word) (s : State) :
    (accept v s).inLen = s.inLen := rfl

@[simp] theorem accept_outLen (v : Word) (s : State) :
    (accept v s).outLen = 0 := rfl

@[simp] theorem accept_keyBuf (v : Word) (s : State) :
    (accept v s).keyBuf = s.keyBuf := rfl

@[simp] theorem accept_inBuf (v : Word) (s : State) :
    (accept v s).inBuf = s.inBuf := rfl

@[simp] theorem accept_outBuf (v : Word) (s : State) :
    (accept v s).outBuf = [] := rfl

@[simp] theorem accept_scratch (v : Word) (s : State) :
    (accept v s).scratch = s.scratch := rfl

@[simp] theorem accept_inReset (v : Word) (s : State) :
    (accept v s).inReset = s.inReset := rfl

@[simp] theorem accept_trng (v : Word) (s : State) :
    (accept v s).trng = s.trng := rfl

@[simp] theorem accept_draws (v : Word) (s : State) :
    (accept v s).draws = s.draws := rfl

@[simp] theorem accept_prog (v : Word) (s : State) :
    (accept v s).prog = s.prog := rfl

@[simp] theorem accept_sched (v : Word) (s : State) :
    (accept v s).sched = s.sched := rfl

@[simp] theorem accept_resp (v : Word) (s : State) :
    (accept v s).resp = s.resp := rfl

/-! A STATUS write (10_state.md R29). -/

@[simp] theorem acknowledge_cfg (v : Word) (s : State) :
    (acknowledge v s).cfg = s.cfg := rfl

@[simp] theorem acknowledge_fsm (v : Word) (s : State) :
    (acknowledge v s).fsm = s.fsm := rfl

@[simp] theorem acknowledge_cmdLatch (v : Word) (s : State) :
    (acknowledge v s).cmdLatch = s.cmdLatch := rfl

@[simp] theorem acknowledge_ie (v : Word) (s : State) :
    (acknowledge v s).ie = s.ie := rfl

@[simp] theorem acknowledge_done (v : Word) (s : State) :
    (acknowledge v s).done = (s.done && !v.getLsbD 1) := rfl

@[simp] theorem acknowledge_accErr (v : Word) (s : State) :
    (acknowledge v s).accErr = (s.accErr && !v.getLsbD 2) := rfl

@[simp] theorem acknowledge_err (v : Word) (s : State) :
    (acknowledge v s).err = s.err := rfl

@[simp] theorem acknowledge_keyLen (v : Word) (s : State) :
    (acknowledge v s).keyLen = s.keyLen := rfl

@[simp] theorem acknowledge_inLen (v : Word) (s : State) :
    (acknowledge v s).inLen = s.inLen := rfl

@[simp] theorem acknowledge_outLen (v : Word) (s : State) :
    (acknowledge v s).outLen = s.outLen := rfl

@[simp] theorem acknowledge_keyBuf (v : Word) (s : State) :
    (acknowledge v s).keyBuf = s.keyBuf := rfl

@[simp] theorem acknowledge_inBuf (v : Word) (s : State) :
    (acknowledge v s).inBuf = s.inBuf := rfl

@[simp] theorem acknowledge_outBuf (v : Word) (s : State) :
    (acknowledge v s).outBuf = s.outBuf := rfl

@[simp] theorem acknowledge_scratch (v : Word) (s : State) :
    (acknowledge v s).scratch = s.scratch := rfl

@[simp] theorem acknowledge_inReset (v : Word) (s : State) :
    (acknowledge v s).inReset = s.inReset := rfl

@[simp] theorem acknowledge_trng (v : Word) (s : State) :
    (acknowledge v s).trng = s.trng := rfl

@[simp] theorem acknowledge_draws (v : Word) (s : State) :
    (acknowledge v s).draws = s.draws := rfl

@[simp] theorem acknowledge_prog (v : Word) (s : State) :
    (acknowledge v s).prog = s.prog := rfl

@[simp] theorem acknowledge_sched (v : Word) (s : State) :
    (acknowledge v s).sched = s.sched := rfl

@[simp] theorem acknowledge_resp (v : Word) (s : State) :
    (acknowledge v s).resp = s.resp := rfl

/-! Reset (70_reset_and_hazards.md R205). -/

@[simp] theorem resetBlock_cfg (s : State) :
    (resetBlock s).cfg = s.cfg := rfl

@[simp] theorem resetBlock_fsm (s : State) :
    (resetBlock s).fsm = .idle := rfl

@[simp] theorem resetBlock_cmdLatch (s : State) :
    (resetBlock s).cmdLatch = 0 := rfl

@[simp] theorem resetBlock_ie (s : State) :
    (resetBlock s).ie = false := rfl

@[simp] theorem resetBlock_done (s : State) :
    (resetBlock s).done = false := rfl

@[simp] theorem resetBlock_accErr (s : State) :
    (resetBlock s).accErr = false := rfl

@[simp] theorem resetBlock_err (s : State) :
    (resetBlock s).err = 0 := rfl

@[simp] theorem resetBlock_keyLen (s : State) :
    (resetBlock s).keyLen = 0 := rfl

@[simp] theorem resetBlock_inLen (s : State) :
    (resetBlock s).inLen = 0 := rfl

@[simp] theorem resetBlock_outLen (s : State) :
    (resetBlock s).outLen = 0 := rfl

@[simp] theorem resetBlock_keyBuf (s : State) :
    (resetBlock s).keyBuf = [] := rfl

@[simp] theorem resetBlock_inBuf (s : State) :
    (resetBlock s).inBuf = [] := rfl

@[simp] theorem resetBlock_outBuf (s : State) :
    (resetBlock s).outBuf = [] := rfl

@[simp] theorem resetBlock_scratch (s : State) :
    (resetBlock s).scratch = [] := rfl

@[simp] theorem resetBlock_inReset (s : State) :
    (resetBlock s).inReset = s.inReset := rfl

@[simp] theorem resetBlock_trng (s : State) :
    (resetBlock s).trng = none := rfl

@[simp] theorem resetBlock_draws (s : State) :
    (resetBlock s).draws = s.draws := rfl

@[simp] theorem resetBlock_prog (s : State) :
    (resetBlock s).prog = s.prog := rfl

@[simp] theorem resetBlock_sched (s : State) :
    (resetBlock s).sched = s.sched := rfl

@[simp] theorem resetBlock_resp (s : State) :
    (resetBlock s).resp = s.resp := rfl

/-! Reset as one step. -/

@[simp] theorem resetTurn_cfg (s : State) :
    (resetTurn s).cfg = s.cfg := rfl

@[simp] theorem resetTurn_fsm (s : State) :
    (resetTurn s).fsm = .idle := rfl

@[simp] theorem resetTurn_cmdLatch (s : State) :
    (resetTurn s).cmdLatch = 0 := rfl

@[simp] theorem resetTurn_ie (s : State) :
    (resetTurn s).ie = false := rfl

@[simp] theorem resetTurn_done (s : State) :
    (resetTurn s).done = false := rfl

@[simp] theorem resetTurn_accErr (s : State) :
    (resetTurn s).accErr = false := rfl

@[simp] theorem resetTurn_err (s : State) :
    (resetTurn s).err = 0 := rfl

@[simp] theorem resetTurn_keyLen (s : State) :
    (resetTurn s).keyLen = 0 := rfl

@[simp] theorem resetTurn_inLen (s : State) :
    (resetTurn s).inLen = 0 := rfl

@[simp] theorem resetTurn_outLen (s : State) :
    (resetTurn s).outLen = 0 := rfl

@[simp] theorem resetTurn_keyBuf (s : State) :
    (resetTurn s).keyBuf = [] := rfl

@[simp] theorem resetTurn_inBuf (s : State) :
    (resetTurn s).inBuf = [] := rfl

@[simp] theorem resetTurn_outBuf (s : State) :
    (resetTurn s).outBuf = [] := rfl

@[simp] theorem resetTurn_scratch (s : State) :
    (resetTurn s).scratch = [] := rfl

@[simp] theorem resetTurn_inReset (s : State) :
    (resetTurn s).inReset = false := rfl

@[simp] theorem resetTurn_trng (s : State) :
    (resetTurn s).trng = none := rfl

@[simp] theorem resetTurn_draws (s : State) :
    (resetTurn s).draws = s.draws := rfl

@[simp] theorem resetTurn_prog (s : State) :
    (resetTurn s).prog = s.prog := rfl

@[simp] theorem resetTurn_sched (s : State) :
    (resetTurn s).sched = s.sched := rfl

@[simp] theorem resetTurn_resp (s : State) :
    (resetTurn s).resp = s.resp := rfl

/-! Reset held. -/

@[simp] theorem holdResetTurn_cfg (s : State) :
    (holdResetTurn s).cfg = s.cfg := rfl

@[simp] theorem holdResetTurn_fsm (s : State) :
    (holdResetTurn s).fsm = .idle := rfl

@[simp] theorem holdResetTurn_cmdLatch (s : State) :
    (holdResetTurn s).cmdLatch = 0 := rfl

@[simp] theorem holdResetTurn_ie (s : State) :
    (holdResetTurn s).ie = false := rfl

@[simp] theorem holdResetTurn_done (s : State) :
    (holdResetTurn s).done = false := rfl

@[simp] theorem holdResetTurn_accErr (s : State) :
    (holdResetTurn s).accErr = false := rfl

@[simp] theorem holdResetTurn_err (s : State) :
    (holdResetTurn s).err = 0 := rfl

@[simp] theorem holdResetTurn_keyLen (s : State) :
    (holdResetTurn s).keyLen = 0 := rfl

@[simp] theorem holdResetTurn_inLen (s : State) :
    (holdResetTurn s).inLen = 0 := rfl

@[simp] theorem holdResetTurn_outLen (s : State) :
    (holdResetTurn s).outLen = 0 := rfl

@[simp] theorem holdResetTurn_keyBuf (s : State) :
    (holdResetTurn s).keyBuf = [] := rfl

@[simp] theorem holdResetTurn_inBuf (s : State) :
    (holdResetTurn s).inBuf = [] := rfl

@[simp] theorem holdResetTurn_outBuf (s : State) :
    (holdResetTurn s).outBuf = [] := rfl

@[simp] theorem holdResetTurn_scratch (s : State) :
    (holdResetTurn s).scratch = [] := rfl

@[simp] theorem holdResetTurn_inReset (s : State) :
    (holdResetTurn s).inReset = true := rfl

@[simp] theorem holdResetTurn_trng (s : State) :
    (holdResetTurn s).trng = none := rfl

@[simp] theorem holdResetTurn_draws (s : State) :
    (holdResetTurn s).draws = s.draws := rfl

@[simp] theorem holdResetTurn_prog (s : State) :
    (holdResetTurn s).prog = s.prog := rfl

@[simp] theorem holdResetTurn_sched (s : State) :
    (holdResetTurn s).sched = s.sched := rfl

@[simp] theorem holdResetTurn_resp (s : State) :
    (holdResetTurn s).resp = s.resp := rfl

/-! Reset released. -/

@[simp] theorem releaseResetTurn_cfg (s : State) :
    (releaseResetTurn s).cfg = s.cfg := rfl

@[simp] theorem releaseResetTurn_fsm (s : State) :
    (releaseResetTurn s).fsm = s.fsm := rfl

@[simp] theorem releaseResetTurn_cmdLatch (s : State) :
    (releaseResetTurn s).cmdLatch = s.cmdLatch := rfl

@[simp] theorem releaseResetTurn_ie (s : State) :
    (releaseResetTurn s).ie = s.ie := rfl

@[simp] theorem releaseResetTurn_done (s : State) :
    (releaseResetTurn s).done = s.done := rfl

@[simp] theorem releaseResetTurn_accErr (s : State) :
    (releaseResetTurn s).accErr = s.accErr := rfl

@[simp] theorem releaseResetTurn_err (s : State) :
    (releaseResetTurn s).err = s.err := rfl

@[simp] theorem releaseResetTurn_keyLen (s : State) :
    (releaseResetTurn s).keyLen = s.keyLen := rfl

@[simp] theorem releaseResetTurn_inLen (s : State) :
    (releaseResetTurn s).inLen = s.inLen := rfl

@[simp] theorem releaseResetTurn_outLen (s : State) :
    (releaseResetTurn s).outLen = s.outLen := rfl

@[simp] theorem releaseResetTurn_keyBuf (s : State) :
    (releaseResetTurn s).keyBuf = s.keyBuf := rfl

@[simp] theorem releaseResetTurn_inBuf (s : State) :
    (releaseResetTurn s).inBuf = s.inBuf := rfl

@[simp] theorem releaseResetTurn_outBuf (s : State) :
    (releaseResetTurn s).outBuf = s.outBuf := rfl

@[simp] theorem releaseResetTurn_scratch (s : State) :
    (releaseResetTurn s).scratch = s.scratch := rfl

@[simp] theorem releaseResetTurn_inReset (s : State) :
    (releaseResetTurn s).inReset = false := rfl

@[simp] theorem releaseResetTurn_trng (s : State) :
    (releaseResetTurn s).trng = s.trng := rfl

@[simp] theorem releaseResetTurn_draws (s : State) :
    (releaseResetTurn s).draws = s.draws := rfl

@[simp] theorem releaseResetTurn_prog (s : State) :
    (releaseResetTurn s).prog = s.prog := rfl

@[simp] theorem releaseResetTurn_sched (s : State) :
    (releaseResetTurn s).sched = s.sched := rfl

@[simp] theorem releaseResetTurn_resp (s : State) :
    (releaseResetTurn s).resp = s.resp := rfl

/-! The beginning of a step. -/

@[simp] theorem beginStep_cfg (s : State) :
    (beginStep s).cfg = s.cfg := rfl

@[simp] theorem beginStep_fsm (s : State) :
    (beginStep s).fsm = s.fsm := rfl

@[simp] theorem beginStep_cmdLatch (s : State) :
    (beginStep s).cmdLatch = s.cmdLatch := rfl

@[simp] theorem beginStep_ie (s : State) :
    (beginStep s).ie = s.ie := rfl

@[simp] theorem beginStep_done (s : State) :
    (beginStep s).done = s.done := rfl

@[simp] theorem beginStep_accErr (s : State) :
    (beginStep s).accErr = s.accErr := rfl

@[simp] theorem beginStep_err (s : State) :
    (beginStep s).err = s.err := rfl

@[simp] theorem beginStep_keyLen (s : State) :
    (beginStep s).keyLen = s.keyLen := rfl

@[simp] theorem beginStep_inLen (s : State) :
    (beginStep s).inLen = s.inLen := rfl

@[simp] theorem beginStep_outLen (s : State) :
    (beginStep s).outLen = s.outLen := rfl

@[simp] theorem beginStep_keyBuf (s : State) :
    (beginStep s).keyBuf = s.keyBuf := rfl

@[simp] theorem beginStep_inBuf (s : State) :
    (beginStep s).inBuf = s.inBuf := rfl

@[simp] theorem beginStep_outBuf (s : State) :
    (beginStep s).outBuf = s.outBuf := rfl

@[simp] theorem beginStep_scratch (s : State) :
    (beginStep s).scratch = s.scratch := rfl

@[simp] theorem beginStep_inReset (s : State) :
    (beginStep s).inReset = s.inReset := rfl

@[simp] theorem beginStep_trng (s : State) :
    (beginStep s).trng = s.trng := rfl

@[simp] theorem beginStep_draws (s : State) :
    (beginStep s).draws = s.draws := rfl

@[simp] theorem beginStep_prog (s : State) :
    (beginStep s).prog = s.prog := rfl

@[simp] theorem beginStep_sched (s : State) :
    (beginStep s).sched = s.sched.tail := rfl

@[simp] theorem beginStep_resp (s : State) :
    (beginStep s).resp = .none := rfl

/-! Publishing a result: only OUT_BUF and OUT_LEN (43_commands.md R166). -/

@[simp] theorem publish_cfg (code : ErrCode) (out : Option Bytes) (s : State) :
    (publish code out s).cfg = s.cfg := by
  unfold publish; split <;> rfl

@[simp] theorem publish_fsm (code : ErrCode) (out : Option Bytes) (s : State) :
    (publish code out s).fsm = s.fsm := by
  unfold publish; split <;> rfl

@[simp] theorem publish_cmdLatch (code : ErrCode) (out : Option Bytes) (s : State) :
    (publish code out s).cmdLatch = s.cmdLatch := by
  unfold publish; split <;> rfl

@[simp] theorem publish_ie (code : ErrCode) (out : Option Bytes) (s : State) :
    (publish code out s).ie = s.ie := by
  unfold publish; split <;> rfl

@[simp] theorem publish_done (code : ErrCode) (out : Option Bytes) (s : State) :
    (publish code out s).done = s.done := by
  unfold publish; split <;> rfl

@[simp] theorem publish_accErr (code : ErrCode) (out : Option Bytes) (s : State) :
    (publish code out s).accErr = s.accErr := by
  unfold publish; split <;> rfl

@[simp] theorem publish_err (code : ErrCode) (out : Option Bytes) (s : State) :
    (publish code out s).err = s.err := by
  unfold publish; split <;> rfl

@[simp] theorem publish_keyLen (code : ErrCode) (out : Option Bytes) (s : State) :
    (publish code out s).keyLen = s.keyLen := by
  unfold publish; split <;> rfl

@[simp] theorem publish_inLen (code : ErrCode) (out : Option Bytes) (s : State) :
    (publish code out s).inLen = s.inLen := by
  unfold publish; split <;> rfl

@[simp] theorem publish_keyBuf (code : ErrCode) (out : Option Bytes) (s : State) :
    (publish code out s).keyBuf = s.keyBuf := by
  unfold publish; split <;> rfl

@[simp] theorem publish_inBuf (code : ErrCode) (out : Option Bytes) (s : State) :
    (publish code out s).inBuf = s.inBuf := by
  unfold publish; split <;> rfl

@[simp] theorem publish_scratch (code : ErrCode) (out : Option Bytes) (s : State) :
    (publish code out s).scratch = s.scratch := by
  unfold publish; split <;> rfl

@[simp] theorem publish_inReset (code : ErrCode) (out : Option Bytes) (s : State) :
    (publish code out s).inReset = s.inReset := by
  unfold publish; split <;> rfl

@[simp] theorem publish_trng (code : ErrCode) (out : Option Bytes) (s : State) :
    (publish code out s).trng = s.trng := by
  unfold publish; split <;> rfl

@[simp] theorem publish_draws (code : ErrCode) (out : Option Bytes) (s : State) :
    (publish code out s).draws = s.draws := by
  unfold publish; split <;> rfl

@[simp] theorem publish_prog (code : ErrCode) (out : Option Bytes) (s : State) :
    (publish code out s).prog = s.prog := by
  unfold publish; split <;> rfl

@[simp] theorem publish_sched (code : ErrCode) (out : Option Bytes) (s : State) :
    (publish code out s).sched = s.sched := by
  unfold publish; split <;> rfl

@[simp] theorem publish_resp (code : ErrCode) (out : Option Bytes) (s : State) :
    (publish code out s).resp = s.resp := by
  unfold publish; split <;> rfl

@[simp] theorem publish_ok_some_outBuf (bs : Bytes) (s : State) :
    (publish .ok (some bs) s).outBuf = Memory.writeBytes s.outBuf 0 bs := rfl

@[simp] theorem publish_ok_some_outLen (bs : Bytes) (s : State) :
    (publish .ok (some bs) s).outLen = BitVec.ofNat 32 bs.length := rfl

/-- Without an output, or on an error code, nothing is published. -/
theorem publish_eq_self {code : ErrCode} {out : Option Bytes} (s : State) (h : code ≠ .ok ∨ out = none) :
    publish code out s = s := by
  unfold publish
  split
  · simp at h
  · rfl

@[simp] theorem publish_none (code : ErrCode) (s : State) : publish code none s = s :=
  publish_eq_self s (.inr rfl)

/-! Completion (43_commands.md R166). -/

@[simp] theorem finish_cfg (code : ErrCode) (out : Option Bytes) (s : State) :
    (finish code out s).cfg = s.cfg := by simp [finish]

@[simp] theorem finish_fsm (code : ErrCode) (out : Option Bytes) (s : State) :
    (finish code out s).fsm = .idle := rfl

@[simp] theorem finish_cmdLatch (code : ErrCode) (out : Option Bytes) (s : State) :
    (finish code out s).cmdLatch = 0 := rfl

@[simp] theorem finish_ie (code : ErrCode) (out : Option Bytes) (s : State) :
    (finish code out s).ie = s.ie := by simp [finish]

@[simp] theorem finish_done (code : ErrCode) (out : Option Bytes) (s : State) :
    (finish code out s).done = true := rfl

@[simp] theorem finish_accErr (code : ErrCode) (out : Option Bytes) (s : State) :
    (finish code out s).accErr = s.accErr := by simp [finish]

@[simp] theorem finish_err (code : ErrCode) (out : Option Bytes) (s : State) :
    (finish code out s).err = errNumber code := rfl

@[simp] theorem finish_keyLen (code : ErrCode) (out : Option Bytes) (s : State) :
    (finish code out s).keyLen = 0 := rfl

@[simp] theorem finish_inLen (code : ErrCode) (out : Option Bytes) (s : State) :
    (finish code out s).inLen = 0 := rfl

@[simp] theorem finish_outLen (code : ErrCode) (out : Option Bytes) (s : State) :
    (finish code out s).outLen = (publish code out s).outLen := rfl

@[simp] theorem finish_keyBuf (code : ErrCode) (out : Option Bytes) (s : State) :
    (finish code out s).keyBuf = [] := rfl

@[simp] theorem finish_inBuf (code : ErrCode) (out : Option Bytes) (s : State) :
    (finish code out s).inBuf = [] := rfl

@[simp] theorem finish_outBuf (code : ErrCode) (out : Option Bytes) (s : State) :
    (finish code out s).outBuf = (publish code out s).outBuf := rfl

@[simp] theorem finish_scratch (code : ErrCode) (out : Option Bytes) (s : State) :
    (finish code out s).scratch = [] := rfl

@[simp] theorem finish_inReset (code : ErrCode) (out : Option Bytes) (s : State) :
    (finish code out s).inReset = s.inReset := by simp [finish]

@[simp] theorem finish_trng (code : ErrCode) (out : Option Bytes) (s : State) :
    (finish code out s).trng = none := rfl

@[simp] theorem finish_draws (code : ErrCode) (out : Option Bytes) (s : State) :
    (finish code out s).draws = s.draws := by simp [finish]

@[simp] theorem finish_prog (code : ErrCode) (out : Option Bytes) (s : State) :
    (finish code out s).prog = s.prog := by simp [finish]

@[simp] theorem finish_sched (code : ErrCode) (out : Option Bytes) (s : State) :
    (finish code out s).sched = s.sched := by simp [finish]

@[simp] theorem finish_resp (code : ErrCode) (out : Option Bytes) (s : State) :
    (finish code out s).resp = s.resp := by simp [finish]

end Sys2Proof.Machine
end

