-- ==== Sys2Proof/Laws/Machine.lean ====
section
/-! SUPPORT. What each shared operation can do, said once: completions, writes, bus accesses, host turns and steps. -/

namespace Sys2Proof.Machine

/-- A command either waits for the random source, with nothing changed, or completes by `finish`
(43_commands.md R166; 42_trng.md R163). -/
theorem exec_cases {i : Instr} {s t : State} (h : exec i s = .next t) :
    (i = .encrypt ∧ encryptBody s = none ∧ t = s) ∨ ∃ code out, t = finish code out s := by
  cases i with
  | encrypt =>
    simp only [exec, execEncrypt] at h
    split at h
    next hb => cases h; exact .inl ⟨rfl, hb, rfl⟩
    next r hb => cases h; exact .inr ⟨_, _, rfl⟩
  | decrypt => cases h; exact .inr ⟨_, _, rfl⟩
  | wipe => cases h; exact .inr ⟨_, _, rfl⟩
  | illegal w => cases h; exact .inr ⟨_, _, rfl⟩

/-- Every command answers a next state. -/
theorem exec_isNext (i : Instr) (s : State) : ∃ t, exec i s = .next t := by
  cases i with
  | encrypt =>
    simp only [exec, execEncrypt]
    split
    · exact ⟨_, rfl⟩
    · exact ⟨_, rfl⟩
  | decrypt => exact ⟨_, rfl⟩
  | wipe => exact ⟨_, rfl⟩
  | illegal w => exact ⟨_, rfl⟩

/-- An ENCRYPT waits exactly when its checks passed and the source has not answered (42_trng.md R163). -/
theorem encryptBody_none_iff (s : State) :
    encryptBody s = none ↔ keyLengthOk s = true ∧ encryptFits s = true ∧ s.trng = none := by
  unfold encryptBody
  cases keyLengthOk s <;> cases encryptFits s <;> simp
  cases h : s.trng with
  | none => simp
  | some a => cases a <;> simp

/-- A guarded write while BUSY is ignored and sets ACCERR (10_state.md R32). -/
theorem hostWrite_guarded {s : State} {off : Nat} (v : Word) (hg : guarded off = true) (hb : s.fsm = .busy) :
    hostWrite s off v = { s with accErr := true } := by
  simp [hostWrite, hg, isBusy, hb]

/-- Everything a write can do (20_memory.md R64). -/
theorem hostWrite_cases (s : State) (off : Nat) (v : Word) :
    (s.fsm = .busy ∧ hostWrite s off v = { s with accErr := true })
      ∨ hostWrite s off v = { s with ie := v.getLsbD 0 }
      ∨ hostWrite s off v = acknowledge v s
      ∨ (s.fsm = .idle ∧ (hostWrite s off v = accept v s
          ∨ hostWrite s off v = { s with keyLen := v }
          ∨ hostWrite s off v = { s with inLen := v }
          ∨ (Config.offKey ≤ off ∧ off < Config.offKeyEnd ∧
              hostWrite s off v = { s with keyBuf := Memory.writeWord s.keyBuf (off - Config.offKey) v })
          ∨ (Config.offIn ≤ off ∧ off - Config.offIn < s.cfg.bufSize ∧
              hostWrite s off v = { s with inBuf := Memory.writeWord s.inBuf (off - Config.offIn) v })))
      ∨ hostWrite s off v = s := by
  have idle_of : ¬(guarded off && isBusy s) = true → guarded off = true → s.fsm = .idle := by
    intro h hg
    cases hf : s.fsm with
    | idle => rfl
    | busy => simp [hg, isBusy, hf] at h
  unfold hostWrite
  split
  next h =>
    simp only [Bool.and_eq_true, isBusy, beq_iff_eq] at h
    exact .inl ⟨h.2, rfl⟩
  next h =>
    split
    · exact .inr (.inl rfl)
    split
    · exact .inr (.inr (.inl rfl))
    split
    next ho => subst ho; exact .inr (.inr (.inr (.inl ⟨idle_of h rfl, .inl rfl⟩)))
    split
    next ho => subst ho; exact .inr (.inr (.inr (.inl ⟨idle_of h rfl, .inr (.inl rfl)⟩)))
    split
    next ho => subst ho; exact .inr (.inr (.inr (.inl ⟨idle_of h rfl, .inr (.inr (.inl rfl))⟩)))
    split
    next ho =>
      have hg : guarded off = true := by simp [guarded, ho.1, ho.2]
      exact .inr (.inr (.inr (.inl ⟨idle_of h hg, .inr (.inr (.inr (.inl ⟨ho.1, ho.2, rfl⟩)))⟩)))
    split
    next ho =>
      have hg : guarded off = true := by simp [guarded, ho.1, ho.2]
      split
      next hl => exact .inr (.inr (.inr (.inl ⟨idle_of h hg, .inr (.inr (.inr (.inr ⟨ho.1, hl, rfl⟩)))⟩)))
      next => exact .inr (.inr (.inr (.inr rfl)))
    · exact .inr (.inr (.inr (.inr rfl)))

/-- Everything a bus access can do: change the response alone, or be a legal write outside reset
(20_memory.md R60, R62, R67). -/
theorem busAccess_cases (a : Access) (s : State) :
    (∃ r, busAccess a s = { s with resp := r })
      ∨ (reaches s a = true ∧ legalAccess s a = true ∧ s.inReset = false ∧ ∃ v, a.kind = .write v
          ∧ busAccess a s = { hostWrite s (a.addr - s.cfg.baseAddr) v with resp := .written }) := by
  unfold busAccess
  split
  · exact .inl ⟨_, rfl⟩
  next hr =>
    split
    · exact .inl ⟨_, rfl⟩
    next hl =>
      unfold legalEffect
      split
      · exact .inl ⟨_, rfl⟩
      next v hk =>
        cases hR : s.inReset with
        | true => exact .inl ⟨.written, by simp [hR]⟩
        | false =>
          exact .inr ⟨by simpa using hr, by simpa using hl, rfl, v, hk, by simp⟩

/-- A 32-bit access at a word offset of the aperture is legal and reaches AEADC. -/
theorem busAccess_accessAt {off : Nat} (s : State) (k : AccessKind) (h4 : off % 4 = 0) (hlt : off < 0x30000) :
    busAccess (accessAt s off k) s = legalEffect off k s := by
  have h1 : reaches s (accessAt s off k) = true := by simp [reaches, accessAt, Config.aperture, hlt]
  have h2 : legalAccess s (accessAt s off k) = true := by simp [legalAccess, accessAt, h4]
  have h3 : (accessAt s off k).addr - s.cfg.baseAddr = off := by simp [accessAt]
  have h5 : (accessAt s off k).kind = k := rfl
  rw [busAccess, h1, h2, h3, h5]
  rfl

/-- A legal read outside reset writes the response alone (20_memory.md R63). -/
theorem readAt_eq {s : State} {off : Nat} (hr : s.inReset = false) (h4 : off % 4 = 0) (hlt : off < 0x30000) :
    readAt off s = { s with resp := .data (hostRead s off) } := by
  rw [readAt, busAccess_accessAt s .read h4 hlt, legalEffect, hr]
  rfl

/-- A legal write outside reset is `HostWrite` (20_memory.md R64). -/
theorem writeAt_eq {s : State} {off : Nat} (v : Word) (hr : s.inReset = false) (h4 : off % 4 = 0)
    (hlt : off < 0x30000) : writeAt off v s = { hostWrite s off v with resp := .written } := by
  rw [writeAt, busAccess_accessAt s (.write v) h4 hlt, legalEffect, hr]
  rfl

/-- A program item is one bus access, or a look at irq; after it the program is another one (30_encoding.md
R92; 70_reset_and_hazards.md R210). -/
theorem runHostOp_cases (op : HostOp) (rest : List HostOp) (s : State) :
    (∃ p, runHostOp op rest s = { s with prog := p })
      ∨ ∃ a p, runHostOp op rest s = { busAccess a s with prog := p } := by
  cases op with
  | bus a => exact .inr ⟨a, rest, rfl⟩
  | write off v => exact .inr ⟨_, rest, rfl⟩
  | read off => exact .inr ⟨_, rest, rfl⟩
  | poll off mask val =>
    simp only [runHostOp]
    split
    · exact .inr ⟨_, rest, rfl⟩
    · exact .inr ⟨accessAt s off .read, (readAt off s).prog, rfl⟩
  | readout => exact .inr ⟨_, _, rfl⟩
  | takeResult => exact .inr ⟨_, _, rfl⟩
  | waitIrq =>
    simp only [runHostOp]
    split
    · exact .inl ⟨rest, rfl⟩
    · exact .inl ⟨s.prog, rfl⟩

/-- A host turn is the host program moving on, with one bus access or with none (30_encoding.md R92). -/
theorem hostTurn_cases (s : State) :
    (∃ p, hostTurn s = { s with prog := p }) ∨ ∃ a p, hostTurn s = { busAccess a s with prog := p } := by
  unfold hostTurn
  split
  · exact .inl ⟨s.prog, rfl⟩
  · exact runHostOp_cases _ _ s

/-- The state after `k + 1` host turns is that after `k` host turns from the state after the first. -/
theorem hostTurns_succ (k : Nat) (s : State) : hostTurns (k + 1) s = hostTurns k (hostTurn s) := rfl

/-- Everything a step can do (00_scope.md R17; 60_exceptions.md R192). -/
theorem step_cases {s t : State} (h : step s = .next t) :
    (nextTurn s = .engine ∧ engineRuns s = true ∧ exec (fetched s) (beginStep s) = .next t)
      ∨ (nextTurn s = .engine ∧ engineRuns s = false ∧ t = beginStep s)
      ∨ (nextTurn s = .host ∧ t = hostTurn (beginStep s))
      ∨ (∃ a, nextTurn s = .source a ∧ t = sourceAnswer a (beginStep s))
      ∨ (∃ a v, nextTurn s = .scratch a v ∧ t = scratchWork a v (beginStep s))
      ∨ (nextTurn s = .reset ∧ t = resetTurn (beginStep s))
      ∨ (nextTurn s = .holdReset ∧ t = holdResetTurn (beginStep s))
      ∨ (nextTurn s = .releaseReset ∧ t = releaseResetTurn (beginStep s)) := by
  have he : engineRuns (beginStep s) = engineRuns s := rfl
  have hf : fetched (beginStep s) = fetched s := rfl
  simp only [step, runTurn, he, hf] at h
  split at h
  next hn =>
    split at h
    next hr => exact .inl ⟨hn, hr, h⟩
    next hr => cases h; exact .inr (.inl ⟨hn, by simpa using hr, rfl⟩)
  next hn => cases h; exact .inr (.inr (.inl ⟨hn, rfl⟩))
  next a hn => cases h; exact .inr (.inr (.inr (.inl ⟨a, hn, rfl⟩)))
  next a v hn => cases h; exact .inr (.inr (.inr (.inr (.inl ⟨a, v, hn, rfl⟩))))
  next hn => cases h; exact .inr (.inr (.inr (.inr (.inr (.inl ⟨hn, rfl⟩)))))
  next hn => cases h; exact .inr (.inr (.inr (.inr (.inr (.inr (.inl ⟨hn, rfl⟩))))))
  next hn => cases h; exact .inr (.inr (.inr (.inr (.inr (.inr (.inr ⟨hn, rfl⟩))))))

/-- The source's answer changes nothing but the answer held and the count of draws (42_trng.md R158). -/
theorem sourceAnswer_cases (a : TrngAnswer) (s : State) :
    (drawOutstanding s = true ∧ sourceAnswer a s = { s with trng := some a, draws := s.draws + 1 })
      ∨ (drawOutstanding s = false ∧ sourceAnswer a s = s) := by
  unfold sourceAnswer
  cases h : drawOutstanding s <;> simp

end Sys2Proof.Machine
end

