-- ==== Sys2Proof/Laws/PerInstr.lean ====
section
/-! SUPPORT. What holds of each command's word: the fields of 30_encoding.md R80 tell the legal commands from the illegal words (R82). -/

namespace Sys2Proof.Laws.CommandWord

/-- A well-formed command is one of the three legal ones exactly when its word has RSVD = 0 and OP 1, 2 or
3 (R80, R82). -/
def Statement (i : Instr) : Prop :=
  i.wellFormed = true →
    ((rsvdField (encode i) = 0 ∧ (opField (encode i) = 1 ∨ opField (encode i) = 2 ∨ opField (encode i) = 3))
      ↔ ∀ w, i ≠ .illegal w)

theorem encrypt : Statement .encrypt := by
  intro _; constructor
  · intro _ w h; cases h
  · intro _; decide

theorem decrypt : Statement .decrypt := by
  intro _; constructor
  · intro _ w h; cases h
  · intro _; decide

theorem wipe : Statement .wipe := by
  intro _; constructor
  · intro _ w h; cases h
  · intro _; decide

/-- A word is the number of its two fields. -/
theorem word_of_fields (w : Word) : w.toNat = 16 * (rsvdField w).toNat + (opField w).toNat := by
  have h := w.isLt
  simp only [rsvdField, opField, BitVec.extractLsb'_toNat, Nat.shiftRight_eq_div_pow]
  omega

theorem illegal (w : Word) : Statement (.illegal w) := by
  intro hw; constructor
  · intro ⟨h0, h1⟩
    have hf := word_of_fields w
    simp only [encode] at h0 h1
    simp only [Instr.wellFormed, Bool.and_eq_true, bne_iff_ne, ne_eq] at hw
    obtain ⟨⟨n1, n2⟩, n3⟩ := hw
    rw [h0] at hf
    rcases h1 with h | h | h <;> rw [h] at hf
    · exact absurd (BitVec.eq_of_toNat_eq hf) n1
    · exact absurd (BitVec.eq_of_toNat_eq hf) n2
    · exact absurd (BitVec.eq_of_toNat_eq hf) n3
  · intro h; exact absurd rfl (h w)

end Sys2Proof.Laws.CommandWord
end

