-- ==== Sys2Proof/Tests/Slice0.lean ====
section
/-! SUPPORT. The model's own tests, each expected value out of spec/95_test_vectors.md or a rule, and a witness for the hypotheses of each statement. -/

namespace Sys2Proof.Tests

open Sys2Proof Sys2Proof.Machine

/-! The states and byte sequences the tests start from. -/

/-- After reset, with both length registers loaded. -/
def idleState (keyLen inLen : Word) : State :=
  { State.reset with keyLen := keyLen, inLen := inLen }

/-- A command in flight, accepted from such a state. -/
def busyState (w keyLen inLen : Word) : State := accept w (idleState keyLen inLen)

/-- A state with the text loaded as the input, the key K0 and `KEY_LEN = 32`. -/
def textState (w : Word) (text : Bytes) : State :=
  { busyState w 32 (BitVec.ofNat 32 text.length) with inBuf := Memory.writeBytes [] 0 text }

/-- Does the outcome have a next state with the property? -/
def nextHas (o : Host.Outcome State Fault Refusal) (p : State → Bool) : Bool :=
  match o with
  | .next t => p t
  | .fault _ => false
  | .refused _ => false

/-- Draw A of spec/95_test_vectors.md: 00 01 .. 1b. -/
def drawA : Vector Byte 28 :=
  #v[0x00, 0x01, 0x02, 0x03, 0x04, 0x05, 0x06, 0x07, 0x08, 0x09, 0x0a, 0x0b, 0x0c, 0x0d,
     0x0e, 0x0f, 0x10, 0x11, 0x12, 0x13, 0x14, 0x15, 0x16, 0x17, 0x18, 0x19, 0x1a, 0x1b]

/-- "hello". -/
def helloBytes : Bytes := [0x68, 0x65, 0x6c, 0x6c, 0x6f]

/-- The blob text B1, as the OUT words that program P1 reads. -/
def textB1 : Bytes :=
  ([0x43454141, 0x46517741, 0x49636742, 0x4C6F5143, 0x4F304144, 0x52417844, 0x554D6845, 0x58595246,
    0x616B4247, 0x45362F47, 0x52494564, 0x7A663530, 0x66493257, 0x73306941, 0x49626C38, 0x67585A48,
    0x3D3D416F] : List Word).flatMap wordBytes

/-- B1 with frame byte 20 flipped: the IN word 0x18 that program P2 shows. -/
def textB1Tampered : Bytes := textB1.take 24 ++ wordBytes 0x564D6845 ++ textB1.drop 28

/-- The text of 43 zero bytes: 58 times 'A', then "==" (L1-6). -/
def text43 : Bytes := List.replicate 58 0x41 ++ [0x3D, 0x3D]

/-- The text of a 44-byte frame of zero bytes: 59 times 'A', then "=". -/
def text44 : Bytes := List.replicate 59 0x41 ++ [0x3D]

/-- The same with frame byte 0, of the salt, set to 4: "BAAA...". -/
def text44Salt : Bytes := 0x42 :: List.replicate 58 0x41 ++ [0x3D]

/-- The key K1 of spec/95_test_vectors.md: 00 01 .. 1f. -/
def keyK1 : Bytes := (List.range 32).map (BitVec.ofNat 8)

/-! Well-formedness and encoding (30_encoding.md R80-R84). -/

/-- R81: an ILLEGAL that carries a legal word is no command. -/
theorem test_illformed_refused :
    Instr.wellFormed (.illegal 0x00000001) = false ∧ Instr.wellFormed (.illegal 0x00000002) = false
      ∧ Instr.wellFormed (.illegal 0x00000003) = false ∧ Instr.wellFormed (.illegal 0x00000000) = true := by
  decide

/-- R81: the three legal words bit by bit, bits 31 to 4 of RSVD and then OP. -/
theorem test_decode_legal_words :
    decode 0b0000000000000000000000000000_0001#32 = .encrypt
      ∧ decode 0b0000000000000000000000000000_0010#32 = .decrypt
      ∧ decode 0b0000000000000000000000000000_0011#32 = .wipe := by decide

/-- Section 3.7 of the vectors: five illegal words. -/
theorem test_decode_illegal_words :
    decode 0b0000000000000000000000000000_0000#32 = .illegal 0x00000000
      ∧ decode 0b0000000000000000000000000000_0100#32 = .illegal 0x00000004
      ∧ decode 0b0000000000000000000000000001_0010#32 = .illegal 0x00000012
      ∧ decode 0b0000000000000000000000010000_0001#32 = .illegal 0x00000101
      ∧ decode 0b1000000000000000000000000000_0001#32 = .illegal 0x80000001 := by decide

/-- The table's words through the host's decoder. -/
theorem test_decodeTableWord :
    decodeTableWord 32 1 = some .encrypt ∧ decodeTableWord 32 2 = some .decrypt
      ∧ decodeTableWord 32 3 = some .wipe ∧ decodeTableWord 32 0 = some (.illegal 0)
      ∧ decodeTableWord 40 1 = none := by decide

/-- A placed command runs at the next step: at reset `KEY_LEN = 0`, so ENCRYPT and DECRYPT answer code 1;
WIPE 0; an illegal word 6. -/
theorem test_placed_commands_run :
    nextHas (step (State.reset.withFetchWord 32 1)) (fun t => t.err == 1 && t.done) = true
      ∧ nextHas (step (State.reset.withFetchWord 32 2)) (fun t => t.err == 1 && t.done) = true
      ∧ nextHas (step (State.reset.withFetchWord 32 3)) (fun t => t.err == 0 && t.done) = true
      ∧ nextHas (step (State.reset.withFetchWord 32 0)) (fun t => t.err == 6 && t.done) = true := by
  decide

/-! The commands, on the vectors of sections 3.5 to 3.7. -/

/-- Program P1: "hello" under K0 with draw A gives B1 and `OUT_LEN = 68`. -/
theorem test_encrypt_hello :
    nextHas (exec .encrypt { textState 1 helloBytes with trng := some (.ok drawA) }) (fun t =>
      t.err == 0 && t.outLen == 68 && t.keyBuf == [] && Memory.slice t.outBuf 0 68 == textB1) = true := by
  decide +kernel

/-- Section 3.5: 3029 bytes and 0xFFFFFFFF bytes exceed 4096; KEY_LEN = 0x120 is wrong. -/
theorem test_encrypt_rejects :
    nextHas (exec .encrypt (busyState 1 32 3029)) (fun t => t.err == 5 && t.outLen == 0) = true
      ∧ nextHas (exec .encrypt (busyState 1 32 0xFFFFFFFF)) (fun t => t.err == 5) = true
      ∧ nextHas (exec .encrypt (busyState 1 0x120 5)) (fun t => t.err == 1) = true := by decide

/-- Program P1: B1 under K0 gives "hello". -/
theorem test_decrypt_hello :
    nextHas (exec .decrypt (textState 2 textB1)) (fun t =>
      t.err == 0 && t.outLen == 5 && Memory.slice t.outBuf 0 5 == helloBytes) = true := by decide +kernel

/-- Program P2: B1 with frame byte 20 flipped gives code 3 and no output. -/
theorem test_decrypt_tampered :
    nextHas (exec .decrypt (textState 2 textB1Tampered)) (fun t =>
      t.err == 3 && t.outLen == 0 && t.outBuf == []) = true := by decide +kernel

/-- Section 3.7: after WIPE, STATUS = 0x00000002 and every buffer and length is zero. -/
theorem test_wipe :
    nextHas (exec .wipe (textState 3 helloBytes)) (fun t =>
      statusWord t == 0x00000002 && t.keyBuf == [] && t.inBuf == [] && t.outBuf == [] && t.keyLen == 0
        && t.inLen == 0 && t.outLen == 0) = true := by decide

/-- Section 3.7: after an illegal word, STATUS = 0x00000602. -/
theorem test_illegal :
    nextHas (exec (.illegal 0x80000001) (textState 0x80000001 helloBytes)) (fun t =>
      statusWord t == 0x00000602 && t.inBuf == []) = true := by decide

/-! The datapath, on the vectors of sections 2 and 3.1 to 3.4. -/

theorem test_gf8 :
    xtime 0x57 = 0xAE ∧ gmul 0x57 0x83 = 0xC1 ∧ gmul 0x57 0x13 = 0xFE ∧ gf8Inverse 0x53 = 0xCA
      ∧ gf8Inverse 0 = 0 := by decide +kernel

theorem test_sbox : sbox 0x00 = 0x63 ∧ sbox 0x01 = 0x7C ∧ sbox 0x53 = 0xED ∧ sbox 0xFF = 0x16 := by
  decide

/-- S1 (FIPS 197 C.3). -/
theorem test_aes256 :
    aes256 keyK1 (blockOfBytes [0x00, 0x11, 0x22, 0x33, 0x44, 0x55, 0x66, 0x77, 0x88, 0x99, 0xaa, 0xbb,
        0xcc, 0xdd, 0xee, 0xff])
      = blockOfBytes [0x8e, 0xa2, 0xb7, 0xca, 0x51, 0x67, 0x45, 0xbf, 0xea, 0xfc, 0x49, 0x90, 0x4b, 0x49,
        0x60, 0x89] := by decide +kernel

theorem test_gf128 :
    gf128Mul 0x40000000000000000000000000000000 0x40000000000000000000000000000000
        = 0x20000000000000000000000000000000
      ∧ gf128Mul 1 0x40000000000000000000000000000000 = 0xe1000000000000000000000000000000
      ∧ gf128Mul 1 1 = 0xe6080000000000000000000000000003 := by decide +kernel

/-- The counter wraps and byte 11 is unchanged. -/
theorem test_inc32 :
    blockBytes (inc32 (blockOfBytes [0, 1, 2, 3, 4, 5, 6, 7, 8, 9, 10, 11, 0xff, 0xff, 0xff, 0xff]))
      = [0, 1, 2, 3, 4, 5, 6, 7, 8, 9, 10, 11, 0, 0, 0, 0] := by decide

/-- S5: "fooba" and "foobar" encode to "Zm9vYmE=" and "Zm9vYmFy". -/
theorem test_b64enc :
    b64enc [0x66, 0x6f, 0x6f, 0x62, 0x61] = [0x5A, 0x6D, 0x39, 0x76, 0x59, 0x6D, 0x45, 0x3D]
      ∧ b64enc [0x66, 0x6f, 0x6f, 0x62, 0x61, 0x72]
        = [0x5A, 0x6D, 0x39, 0x76, 0x59, 0x6D, 0x46, 0x79] := by decide

/-- Section 3.4: "Zg==" and "Zm8=" decode; "Zg=", "Zh==", "Zm9=", "Z===", "=Zg=", "Zg==Zg==" do not. -/
theorem test_b64dec :
    b64dec [0x5A, 0x67, 0x3D, 0x3D] = some [0x66] ∧ b64dec [0x5A, 0x6D, 0x38, 0x3D] = some [0x66, 0x6f]
      ∧ b64dec [0x5A, 0x67, 0x3D] = none ∧ b64dec [0x5A, 0x68, 0x3D, 0x3D] = none
      ∧ b64dec [0x5A, 0x6D, 0x39, 0x3D] = none ∧ b64dec [0x5A, 0x3D, 0x3D, 0x3D] = none
      ∧ b64dec [0x3D, 0x5A, 0x67, 0x3D] = none
      ∧ b64dec [0x5A, 0x67, 0x3D, 0x3D, 0x5A, 0x67, 0x3D, 0x3D] = none := by decide

/-! Register access and reset, on the rows of sections 3.8 and 3.9. -/

theorem test_id_and_caps :
    (readAt 0x000 State.reset).resp = .data 0x41454144 ∧ (readAt 0x004 State.reset).resp = .data 0x00001000
      ∧ writeAt 0x000 0xFFFFFFFF State.reset = { State.reset with resp := .written } := by decide

theorem test_status_w1c :
    statusWord (writeAt 0x00C 0x2 { State.reset with done := true, accErr := true }) = 0x00000004
      ∧ statusWord (writeAt 0x00C 0x4 { State.reset with done := true, accErr := true }) = 0x00000002
      ∧ statusWord (writeAt 0x00C 0xFFFFFFF9 { State.reset with done := true, accErr := true })
        = 0x00000006 := by decide

theorem test_guarded_write_while_busy :
    statusWord (writeAt 0x014 5 (busyState 1 32 0)) = 0x00000005
      ∧ (writeAt 0x014 5 (busyState 1 32 0)).keyLen = 32
      ∧ (writeAt 0x010 2 (busyState 1 32 0)).cmdLatch = 1
      ∧ (writeAt 0x008 1 (busyState 1 32 0)).ie = true := by decide

theorem test_key_and_in_windows :
    (writeAt 0x100 0x12345678 State.reset).keyBuf = [(0, 0x78), (1, 0x56), (2, 0x34), (3, 0x12)]
      ∧ (readAt 0x100 (writeAt 0x100 0x12345678 State.reset)).resp = .data 0
      ∧ Memory.slice (writeAt 0x10000 0x6C6C6568 State.reset).inBuf 0 4 = [0x68, 0x65, 0x6c, 0x6c]
      ∧ (writeAt 0x11000 0xFFFFFFFF State.reset).inBuf = [] := by decide

/-- A 16-bit read of STATUS, and a 32-bit write at 0x016. -/
theorem test_bus_error :
    busAccess ⟨0x00C, .half, .read⟩ State.reset = { State.reset with resp := .busError }
      ∧ busAccess ⟨0x016, .word, .write 5⟩ State.reset = { State.reset with resp := .busError } := by
  decide

/-- Section 3.9: reset of a command in flight completes nothing. -/
theorem test_reset_while_busy :
    resetTurn { busyState 1 32 5 with done := true, ie := true, outBuf := [(0, 1)] } = State.reset := by
  decide

/-! The host protocol (70_reset_and_hazards.md R210). -/

/-- A WIPE loads no key and collects no output; a DECRYPT that waits by irq ends in `RUN WIPE`. -/
theorem test_command_program :
    commandProgram .poll 3 keyK1 []
        = [.poll 0x00C 1 0, .write 0x018 0, .write 0x010 3, .poll 0x00C 1 0, .read 0x00C, .write 0x00C 6]
      ∧ issueCommand .irq 2
        = [.write 0x010 2, .waitIrq, .takeResult, .write 0x00C 6, .write 0x010 3, .poll 0x00C 1 0]
      ∧ (commandProgram .poll 1 keyK1 helloBytes).length = 17 := by decide

/-- Steps 2 and 3 the other way round follow the protocol too. -/
theorem test_protocol_order :
    FollowsProtocol .poll 1 keyK1 helloBytes
      ([.poll 0x00C 1 0] ++ (loadIn helloBytes ++ loadKey keyK1 32) ++ issueCommand .poll 1) :=
  ⟨_, List.perm_append_comm, rfl⟩

/-- After code 3 the OUT words are not read; after code 0 they are. -/
theorem test_take_result :
    (hostTurn { State.reset with err := 3, prog := [.takeResult] }).prog = []
      ∧ (hostTurn { State.reset with prog := [.takeResult] }).prog = [.readout] := by decide

/-! A witness for the hypotheses of each statement that has some, clause by clause. -/

theorem witness_CommandWordsDecodeAsListed :
    (0 : Word) ≠ 0x00000001 ∧ (0 : Word) ≠ 0x00000002 ∧ (0 : Word) ≠ 0x00000003
      ∧ (4 : Word) ≠ 0x00000001 ∧ (4 : Word) ≠ 0x00000002 ∧ (4 : Word) ≠ 0x00000003 := by decide

theorem witness_DecodeAndEncodeAgree :
    Instr.wellFormed .encrypt = true ∧ Instr.wellFormed .decrypt = true ∧ Instr.wellFormed .wipe = true
      ∧ Instr.wellFormed (.illegal 0xFFFFFFFF) = true := by decide

/-- One illegal word for OP = 0, for OP = 4 and 15, and for RSVD not 0 with a legal OP. -/
theorem witness_IllegalWordsAreAcceptedAndCompleteWithSix :
    State.reset.fsm = .idle ∧ State.reset.inReset = false ∧ decode 0 = .illegal 0 ∧ opField 0 = 0
      ∧ decode 4 = .illegal 4 ∧ 4 ≤ (opField 4).toNat ∧ decode 15 = .illegal 15 ∧ 4 ≤ (opField 15).toNat
      ∧ decode 0x13 = .illegal 0x13 ∧ rsvdField 0x13 ≠ 0 := by decide

theorem witness_CmdWriteAcceptsACommand : State.reset.fsm = .idle ∧ State.reset.inReset = false := by decide

/-- The three cases of the output: an error code, code 0 with none, code 0 with bytes (a zero byte among
them, the first one at the first address and the first address beyond). -/
theorem witness_FinishPublishesAndWipes :
    ErrCode.malformedBlob ≠ .ok ∧ (finish .ok none (busyState 3 0 0)).outBuf = []
      ∧ (finish .ok (some [0xAA, 0, 0xBB]) (busyState 2 32 0)).outBuf = [(0, 0xAA), (2, 0xBB)]
      ∧ (finish .ok (some [0xAA, 0, 0xBB]) (busyState 2 32 0)).outLen = 3
      ∧ Memory.read (finish .ok (some [0xAA, 0, 0xBB]) (busyState 2 32 0)).outBuf 3 = 0 := by decide

/-- An ENCRYPT that completes with an answer, one that fails its checks, and a DECRYPT. -/
theorem witness_CompletedCommandLeavesOnlyItsResult :
    (¬(Instr.encrypt = .encrypt ∧ (busyState 1 32 3029).keyLen = 32
        ∧ b64len ((busyState 1 32 3029).inLen.toNat + 44) ≤ (busyState 1 32 3029).cfg.bufSize
        ∧ (busyState 1 32 3029).trng = none))
      ∧ (¬(Instr.encrypt = .encrypt ∧ State.reset.keyLen = 32))
      ∧ ¬(Instr.decrypt = .encrypt) := by decide

theorem witness_CommandFrame :
    (∃ t, exec .wipe (busyState 3 32 0) = .next t)
      ∧ (∃ t, exec .encrypt (busyState 1 31 0) = .next t ∧ t.err ≠ 0) ∧ (busyState 1 31 0).cfg.Legal :=
  ⟨⟨_, rfl⟩, ⟨_, rfl, by decide⟩, by decide⟩

/-- KEY_LEN 31; 3029 bytes, one more than fit; 3028 bytes, as many as fit, with each answer. -/
theorem witness_EncryptResult :
    (busyState 1 31 0).keyLen ≠ 32
      ∧ ((busyState 1 32 3029).keyLen = 32
        ∧ (busyState 1 32 3029).cfg.bufSize < 4 * (((busyState 1 32 3029).inLen.toNat + 44 + 2) / 3))
      ∧ ((busyState 1 32 3028).keyLen = 32
        ∧ 4 * (((busyState 1 32 3028).inLen.toNat + 44 + 2) / 3) ≤ (busyState 1 32 3028).cfg.bufSize
        ∧ (busyState 1 32 3028).trng = none
        ∧ (sourceAnswer .fail (busyState 1 32 3028)).trng = some .fail
        ∧ (sourceAnswer (.ok drawA) (busyState 1 32 3028)).trng = some (.ok drawA)
        ∧ (sourceAnswer (.ok drawA) (busyState 1 32 3028)).inLen = 3028
        ∧ (sourceAnswer (.ok drawA) (busyState 1 32 3028)).keyLen = 32) := by decide

theorem witness_EncryptWaitsForTheSource :
    let s : State := { busyState 1 32 3028 with sched := [.engine, .host] }
    s.fsm = .busy ∧ s.inReset = false ∧ s.cmdLatch = 0x00000001 ∧ s.keyLen = 32
      ∧ b64len (s.inLen.toNat + 44) ≤ s.cfg.bufSize ∧ s.trng = none ∧ s.sched = .engine :: [.host] := by
  decide

/-- KEY_LEN 31; IN_LEN 4097; no base64 ("A" and three zero bytes); 43 and 44 bytes of frame. -/
theorem witness_DecryptResult :
    (busyState 2 31 0).keyLen ≠ 32
      ∧ ((busyState 2 32 4097).keyLen = 32 ∧ (busyState 2 32 4097).cfg.bufSize < (busyState 2 32 4097).inLen.toNat)
      ∧ ((busyState 2 32 4).keyLen = 32 ∧ (busyState 2 32 4).inLen.toNat ≤ (busyState 2 32 4).cfg.bufSize
        ∧ b64dec (inputOperand (busyState 2 32 4)) = none)
      ∧ (b64dec (inputOperand (textState 2 text43)) = some (zeros 43) ∧ (zeros 43).length < 44)
      ∧ (b64dec (inputOperand (textState 2 text44)) = some (zeros 44) ∧ 44 ≤ (zeros 44).length) := by
  decide +kernel

/-- The tag of an empty ciphertext under K0 and the zero IV (S2): a frame with it verifies, and one with
a zero tag does not. -/
theorem witness_DecryptResult_tag :
    gcmTag (zeros 32) (zeros 12) []
        = [0x53, 0x0f, 0x8a, 0xfb, 0xc7, 0x45, 0x36, 0xb9, 0xa9, 0x63, 0xb4, 0xf1, 0xc4, 0xcb, 0x73, 0x8b]
      ∧ gcmTag (zeros 32) (zeros 12) [] ≠ zeros 16 := by decide +kernel

theorem witness_WipeAndIllegalEraseEverything :
    (idleState 32 5).fsm = .idle ∧ (idleState 32 5).inReset = false := by decide

theorem witness_WrongKeyLengthIsRejected :
    (Instr.encrypt = .encrypt ∨ Instr.encrypt = .decrypt) ∧ (Instr.decrypt = .encrypt ∨ Instr.decrypt = .decrypt)
      ∧ (busyState 1 31 0).keyLen ≠ 32 ∧ (busyState 1 33 0).keyLen ≠ 32 := by decide

/-- The longest and the shortest frame that is too short. -/
theorem witness_ShortFrameIsMalformed :
    ((textState 2 text43).cfg.Legal ∧ (textState 2 text43).keyLen = 32
        ∧ b64dec (inputOperand (textState 2 text43)) = some (zeros 43) ∧ (zeros 43).length < 44)
      ∧ (b64dec (inputOperand (busyState 2 32 0)) = some [] ∧ ([] : Bytes).length < 44) := by decide +kernel

theorem witness_NoPlaintextOnFailure :
    BusyPublishesNothing (busyState 2 0 0) ∧ (busyState 2 0 0).fsm = .busy
      ∧ ∃ t, exec .decrypt (busyState 2 0 0) = .next t ∧ t.err ≠ 0 :=
  ⟨by decide, by decide, _, rfl, by decide⟩

/-- The empty plaintext and the longest one. -/
theorem witness_EncryptOutLenIsTheTextLength :
    let s : State := { busyState 1 32 0 with trng := some (.ok drawA) }
    let s' : State := { busyState 1 32 3028 with trng := some (.ok drawA) }
    s.cfg.Legal ∧ s.keyLen = 32 ∧ b64len (s.inLen.toNat + 44) ≤ s.cfg.bufSize ∧ s.trng = some (.ok drawA)
      ∧ s'.cfg.Legal ∧ s'.keyLen = 32 ∧ b64len (s'.inLen.toNat + 44) ≤ s'.cfg.bufSize
      ∧ s'.trng = some (.ok drawA) := by decide

/-- The state that holds the same key and the published text as its input. -/
theorem witness_DecryptOfEncryptIsThePlaintext :
    let s : State := { textState 1 helloBytes with trng := some (.ok drawA) }
    s.cfg.Legal ∧ s.keyLen = 32 ∧ b64len (s.inLen.toNat + 44) ≤ s.cfg.bufSize ∧ s.trng = some (.ok drawA)
      ∧ ∃ t, exec .encrypt s = .next t
        ∧ ∃ s' : State, s'.cfg = s.cfg ∧ s'.keyLen = 32 ∧ keyOperand s' = keyOperand s ∧ s'.inLen = t.outLen
          ∧ inputOperand s' = Memory.slice t.outBuf 0 t.outLen.toNat := by
  intro s
  obtain ⟨t, ht⟩ := exec_isNext .encrypt s
  exact ⟨by decide, by decide, by decide, rfl, t, ht, { s with inBuf := t.outBuf, inLen := t.outLen }, rfl, rfl,
    rfl, rfl, rfl⟩

theorem witness_SaltIsNotRead :
    let s := textState 2 text44
    let s' := textState 2 text44Salt
    s.keyLen = 32 ∧ s'.keyLen = 32 ∧ s.inLen.toNat ≤ s.cfg.bufSize ∧ s'.inLen.toNat ≤ s'.cfg.bufSize
      ∧ keyOperand s' = keyOperand s ∧ s'.outBuf = s.outBuf ∧ s'.outLen = s.outLen
      ∧ b64dec (inputOperand s) = some (zeros 44) ∧ b64dec (inputOperand s') = some (4 :: zeros 43)
      ∧ (4 :: zeros 43 : Bytes).length = (zeros 44).length
      ∧ (4 :: zeros 43 : Bytes).drop 16 = (zeros 44).drop 16 := by decide +kernel

theorem witness_ChangedTagIsDetected :
    let s := textState 2 text44
    s.keyLen = 32 ∧ s.inLen.toNat ≤ s.cfg.bufSize ∧ (zeros 16).length = 16 ∧ (zeros 12).length = 12
      ∧ zeros 16 ≠ gcmTag (keyOperand s) (zeros 12) []
      ∧ inputOperand s = b64enc (zeros 16 ++ zeros 12 ++ [] ++ zeros 16) := by decide +kernel

/-- A byte at IN_LEN itself. -/
theorem witness_InputBeyondInLenIsIgnored :
    (∀ a < (textState 2 helloBytes).inLen.toNat,
        Memory.read (Memory.write (textState 2 helloBytes).inBuf 5 0xFF) a
          = Memory.read (textState 2 helloBytes).inBuf a)
      ∧ ¬(Instr.decrypt = .encrypt ∧ encryptBody (textState 2 helloBytes) = none) := by decide

theorem witness_OnlyAnEncryptPastItsChecksDraws :
    let s := busyState 1 32 3028
    (s.fsm = .busy ∧ s.inReset = false ∧ s.cmdLatch = 0x00000001 ∧ s.keyLen = 32
        ∧ b64len (s.inLen.toNat + 44) ≤ s.cfg.bufSize ∧ s.trng = none)
      ∧ ¬((busyState 2 32 0).cmdLatch = 0x00000001) ∧ ¬(b64len ((busyState 1 32 3029).inLen.toNat + 44) ≤ 4096)
      ∧ Instr.decrypt ≠ .encrypt ∧ ∃ t, exec .encrypt s = .next t := by
  intro s
  exact ⟨by decide, by decide, by decide, by decide, exec_isNext .encrypt s⟩

theorem witness_FailedDrawGivesCodeFour :
    let s : State := { busyState 1 32 2 with trng := some .fail }
    s.keyLen = 32 ∧ b64len (s.inLen.toNat + 44) ≤ s.cfg.bufSize ∧ s.trng = some .fail := by decide

theorem witness_SboxTableIsTheFormula : (1 : Byte) ≠ 0 ∧ (0xFF : Byte) ≠ 0 := by decide

/-- A wrong tag exists for the third law: the zero tag of witness_DecryptResult_tag. -/
theorem witness_GcmOpensWhatItSeals : gcmAD (zeros 32) (zeros 12) [] (zeros 16) = none := by decide +kernel

theorem witness_AlphabetAndItsInverse : b64val 0x41 = some 0 ∧ b64val 0x2F = some 63 := by decide

/-- "AAA=" and "AA==" for the clauses on the last three bytes, the empty text for the others. -/
theorem witness_ValidTextsAreTheEncodersOutputs :
    let t := ([0x41, 0x41, 0x41, 0x3D] : Bytes)
    let u := ([0x41, 0x41, 0x3D, 0x3D] : Bytes)
    b64valid t = true ∧ 4 ≤ t.length ∧ t.getD 2 0 ≠ 0x3D ∧ t.getD 3 0 = 0x3D ∧ b64val (t.getD 2 0) = some 0
      ∧ b64valid u = true ∧ u.getD 2 0 = 0x3D ∧ u.getD 3 0 = 0x3D ∧ b64val (u.getD 1 0) = some 0
      ∧ b64valid [] = true := by decide

theorem witness_Base64IsCanonical : b64dec [0x41, 0x41, 0x3D, 0x3D] = some [0] := by decide

/-- One offset for each clause, the first and last of each range. -/
theorem witness_HostReadReturnsTheMap :
    State.reset.inReset = false
      ∧ (∀ off ∈ [0x000, 0x004, 0x008, 0x00C, 0x010, 0x014, 0x018, 0x01C, 0x020, 0x1FFFC, 0x20000, 0x20FFC,
          0x21000, 0x2FFFC], off % 4 = 0 ∧ off < 0x30000)
      ∧ 0x20FFC - 0x20000 < State.reset.cfg.bufSize ∧ State.reset.cfg.bufSize ≤ 0x21000 - 0x20000 := by
  decide

/-- The five guarded places, and a STATUS write, a reset and a held reset that clear ACCERR. -/
theorem witness_GuardedWriteWhileBusySetsStickyAccErr :
    ((busyState 1 32 0).fsm = .busy ∧ (busyState 1 32 0).inReset = false
        ∧ ∀ off ∈ [0x010, 0x014, 0x018, 0x100, 0x11C, 0x10000, 0x1FFFC], off % 4 = 0
          ∧ (off = 0x010 ∨ off = 0x014 ∨ off = 0x018 ∨ (0x100 ≤ off ∧ off < 0x120)
            ∨ (0x10000 ≤ off ∧ off < 0x20000)))
      ∧ (∃ t, step { State.reset with accErr := true, prog := [.write 0x00C 4] } = .next t ∧ t.accErr = false)
      ∧ (∃ t, step { State.reset with accErr := true, sched := [.reset] } = .next t ∧ t.accErr = false)
      ∧ ∃ t, step { State.reset with accErr := true, sched := [.holdReset] } = .next t ∧ t.accErr = false :=
  ⟨by decide, ⟨_, rfl, by decide⟩, ⟨_, rfl, by decide⟩, _, rfl, by decide⟩

theorem witness_StatusIsWriteOneToClear : (busyState 1 0 0).inReset = false := by decide

theorem witness_CtrlHoldsTheInterruptEnable : (busyState 1 0 0).inReset = false := by decide

theorem witness_LengthRegistersHoldWhatIsWritten :
    State.reset.fsm = .idle ∧ State.reset.inReset = false := by decide

theorem witness_KeyWindowWritesKeyBytes :
    State.reset.fsm = .idle ∧ State.reset.inReset = false ∧ 0 < 8 ∧ 7 < 8 := by decide

/-- The last word inside BUF_SIZE, the first one beyond, and the last of the window. -/
theorem witness_InWindowWritesInputBytes :
    State.reset.fsm = .idle ∧ State.reset.inReset = false ∧ 4092 % 4 = 0 ∧ 4092 < State.reset.cfg.bufSize
      ∧ 4096 % 4 = 0 ∧ State.reset.cfg.bufSize ≤ 4096 ∧ 0xFFFC % 4 = 0 ∧ 0xFFFC < 0x10000 := by decide

theorem witness_WritesToReservedAndReadOnlyOffsetsAreIgnored :
    State.reset.inReset = false
      ∧ ∀ off ∈ [0x000, 0x004, 0x01C, 0x020, 0x0FC, 0x120, 0xFFFC, 0x20000, 0x2FFFC],
          off % 4 = 0 ∧ off < 0x30000
            ∧ (off = 0x000 ∨ off = 0x004 ∨ off = 0x01C ∨ (0x020 ≤ off ∧ off < 0x100)
              ∨ (0x120 ≤ off ∧ off < 0x10000) ∨ 0x20000 ≤ off) := by decide

theorem witness_IllegalAccessIsABusError :
    let s := State.reset
    s.cfg.baseAddr ≤ 0x2FFFF ∧ 0x2FFFF < s.cfg.baseAddr + 0x30000 ∧ (0x2FFFF - s.cfg.baseAddr) % 4 ≠ 0
      ∧ s.cfg.baseAddr ≤ 0 ∧ 0 < s.cfg.baseAddr + 0x30000 ∧ AccessSize.byte ≠ .word ∧ AccessSize.half ≠ .word
      ∧ AccessSize.double ≠ .word ∧ AccessSize.burst ≠ .word := by decide

/-- One below and one beyond the aperture. -/
theorem witness_AccessOutsideTheApertureDoesNotReach :
    let s : State := { State.reset with cfg := ⟨4096, 0x40000000⟩ }
    0x3FFFFFFF < s.cfg.baseAddr ∧ s.cfg.baseAddr + 0x30000 ≤ 0x40030000 := by decide

theorem witness_OutReadsZeroWhileBusy :
    Invariant (busyState 1 32 0) ∧ (busyState 1 32 0).fsm = .busy ∧ 0x01C % 4 = 0 ∧ 0x20000 % 4 = 0
      ∧ 0x2FFFC % 4 = 0 ∧ 0x2FFFC < 0x30000 := by decide

theorem witness_StepRunsTheDecodedCommand :
    let s : State := { busyState 3 0 0 with sched := [.engine] }
    let e : State := busyState 3 0 0
    s.fsm = .busy ∧ s.inReset = false ∧ decode s.cmdLatch = .wipe ∧ s.sched = .engine :: []
      ∧ e.fsm = .busy ∧ e.inReset = false ∧ decode e.cmdLatch = .wipe ∧ e.sched = []
      ∧ completionEnabled e = true := by
  decide

theorem witness_PlacedCommandRunsNext : decodeTableWord 32 1 = some .encrypt := by decide

/-- An acceptance; a completion, a reset and a reset that is held while a command is in flight. -/
theorem witness_SequencerMovesOnlyAsListed :
    (∃ t, step { State.reset with prog := [.write 0x010 1] } = .next t ∧ State.reset.fsm = .idle ∧ t.fsm = .busy)
      ∧ (∃ t, step (busyState 3 0 0) = .next t ∧ (busyState 3 0 0).fsm = .busy ∧ t.fsm = .idle)
      ∧ (∃ t, step { busyState 3 0 0 with sched := [.reset] } = .next t ∧ t.fsm = .idle)
      ∧ ∃ t, step { busyState 3 0 0 with sched := [.holdReset] } = .next t ∧ t.fsm = .idle :=
  ⟨⟨_, rfl, rfl, by decide⟩, ⟨_, rfl, rfl, by decide⟩, ⟨_, rfl, by decide⟩, _, rfl, by decide⟩

/-- A completion; a STATUS write, an acceptance, a reset and a held reset while DONE is 1. -/
theorem witness_DoneChangesOnlyAsListed :
    (∃ t, step (busyState 3 0 0) = .next t ∧ (busyState 3 0 0).done = false ∧ t.done = true)
      ∧ (∃ t, step { State.reset with done := true, prog := [.write 0x00C 2] } = .next t ∧ t.done = false)
      ∧ (∃ t, step { State.reset with done := true, prog := [.write 0x010 1] } = .next t ∧ t.done = false)
      ∧ (∃ t, step { State.reset with done := true, sched := [.reset] } = .next t ∧ t.done = false)
      ∧ ∃ t, step { State.reset with done := true, sched := [.holdReset] } = .next t ∧ t.done = false :=
  ⟨⟨_, rfl, rfl, by decide⟩, ⟨_, rfl, by decide⟩, ⟨_, rfl, by decide⟩, ⟨_, rfl, by decide⟩, _, rfl, by decide⟩

theorem witness_OperandsAreFrozenWhileBusy :
    ∃ t, step { busyState 1 32 5 with prog := [.write 0x100 1] } = .next t
      ∧ (busyState 1 32 5).fsm = .busy ∧ t.fsm = .busy :=
  ⟨_, rfl, rfl, by decide⟩

theorem witness_ParametersNeverChange : ∃ t, step (busyState 3 0 0) = .next t := ⟨_, rfl⟩

/-- Two keys, two inputs and two commands in flight that the host cannot tell apart. -/
theorem witness_HostReadsNoSecret :
    SameToHost (textState 1 helloBytes)
      { textState 1 helloBytes with cmdLatch := 2, keyBuf := [(0, 1)], inBuf := [], scratch := [(9, 9)],
                                    trng := some .fail } := by
  decide

theorem witness_EveryStepKeepsTheInvariant :
    Invariant (textState 2 helloBytes) ∧ ∃ t, step (textState 2 helloBytes) = .next t :=
  ⟨by decide, _, rfl⟩

theorem witness_ResetSetsEveryComponent :
    ({ busyState 1 32 5 with sched := [.reset] } : State).sched = .reset :: []
      ∧ ({ busyState 1 32 5 with sched := [.holdReset] } : State).sched = .holdReset :: []
      ∧ ({ State.reset with inReset := true, sched := [.engine] } : State).inReset = true
      ∧ 0x2FFFC % 4 = 0 ∧ 0x2FFFC < 0x30000 := by decide

theorem witness_InterruptLineIsDoneAndEnable :
    State.reset.inReset = false ∧ (2 : Word).getLsbD 1 = true ∧ (2 : Word).getLsbD 0 = false := by decide

/-- The first and last offset of each guarded place, and the IN window on both sides of BUF_SIZE. -/
theorem witness_RacesHaveBothOrders :
    ((busyState 3 32 0).fsm = .busy ∧ (busyState 3 32 0).inReset = false
        ∧ ∃ t, exec .wipe (busyState 3 32 0) = .next t ∧ t.fsm = .idle ∧ t.cfg.bufSize = 4096)
      ∧ (∀ off ∈ [0x010, 0x014, 0x018, 0x100, 0x11C, 0x10000, 0x10FFC, 0x11000, 0x1FFFC], off % 4 = 0
          ∧ (off = 0x010 ∨ off = 0x014 ∨ off = 0x018 ∨ (0x100 ≤ off ∧ off < 0x120)
            ∨ (0x10000 ≤ off ∧ off < 0x20000)))
      ∧ 0x10FFC - 0x10000 < 4096 ∧ 4096 ≤ 0x11000 - 0x10000 :=
  ⟨⟨by decide, by decide, _, rfl, by decide, rfl⟩, by decide⟩

theorem witness_LoadKeyLoadsTheKey :
    let s : State := { State.reset with prog := loadKey keyK1 32 }
    s.fsm = .idle ∧ s.inReset = false ∧ keyK1.length = 32 ∧ s.prog = loadKey keyK1 32 ++ [] := by
  decide

/-- An input that does not fill its last word, and the empty one. -/
theorem witness_LoadInLoadsTheInput :
    let s : State := { State.reset with prog := loadIn helloBytes ++ runCommand 1 }
    s.cfg.Legal ∧ s.fsm = .idle ∧ s.inReset = false ∧ helloBytes.length ≤ s.cfg.bufSize
      ∧ s.prog = loadIn helloBytes ++ runCommand 1 ∧ ([] : Bytes).length ≤ s.cfg.bufSize := by decide

/-- No byte, 5 bytes and BUF_SIZE bytes; a result with ERR = 0 and one with ERR = 3; irq asserted, and not. -/
theorem witness_ReadoutGivesTheResult :
    let s : State := { State.reset with outLen := 5, prog := [.readout] }
    let r : State := { State.reset with prog := [.takeResult] }
    let f : State := { State.reset with err := 3, prog := [.takeResult] }
    let w : State := { State.reset with done := true, ie := true, prog := [.waitIrq] }
    let u : State := { State.reset with done := true, prog := [.waitIrq] }
    (s.cfg.Legal ∧ s.inReset = false ∧ 5 = s.outLen.toNat ∧ 5 ≤ s.cfg.bufSize ∧ s.prog = .readout :: []
        ∧ 0 ≤ s.cfg.bufSize ∧ 4096 ≤ s.cfg.bufSize)
      ∧ (r.inReset = false ∧ r.prog = .takeResult :: [] ∧ r.err = 0)
      ∧ (f.inReset = false ∧ f.prog = .takeResult :: [] ∧ f.err ≠ 0)
      ∧ (w.prog = .waitIrq :: [] ∧ w.done = true ∧ w.ie = true)
      ∧ (u.prog = .waitIrq :: [] ∧ ¬(u.done = true ∧ u.ie = true)) := by
  decide

/-- BUSY = 0 while IDLE, and BUSY = 1 while a command is in flight. -/
theorem witness_PollRepeatsUntilItsTestHolds :
    let s : State := { State.reset with prog := [.poll 0x00C 1 0] }
    let b : State := { busyState 1 32 0 with prog := [.poll 0x00C 1 0] }
    s.inReset = false ∧ b.inReset = false ∧ 0x00C % 4 = 0 ∧ 0x00C < 0x30000
      ∧ s.prog = .poll 0x00C 1 0 :: [] ∧ b.prog = .poll 0x00C 1 0 :: [] ∧ hostRead s 0x00C &&& 1 = 0
      ∧ hostRead b 0x00C &&& 1 ≠ 0 := by decide

end Sys2Proof.Tests
end

/-! SUPPORT. The parameters under each shared operation and under a step (00_scope.md R8; 20_memory.md R60). -/

namespace Sys2Proof.Machine

/-- A write keeps the parameters, whichever register it reaches (20_memory.md R64). -/
@[simp] theorem hostWrite_cfg (s : State) (off : Nat) (v : Word) : (hostWrite s off v).cfg = s.cfg := by
  obtain ⟨-, h⟩ | h | h | ⟨-, h | h | h | ⟨-, -, h⟩ | ⟨-, -, h⟩⟩ | h := hostWrite_cases s off v <;> simp [h]

/-- A bus access changes the response, or is a legal write. -/
@[simp] theorem busAccess_cfg (a : Access) (s : State) : (busAccess a s).cfg = s.cfg := by
  obtain ⟨r, h⟩ | ⟨-, -, -, v, -, h⟩ := busAccess_cases a s
  · rw [h]
  · rw [h]; exact hostWrite_cfg s _ v

/-- The host's turn is at most one bus access. -/
@[simp] theorem hostTurn_cfg (s : State) : (hostTurn s).cfg = s.cfg := by
  obtain ⟨p, h⟩ | ⟨a, p, h⟩ := hostTurn_cases s
  · rw [h]
  · rw [h]; exact busAccess_cfg a s

@[simp] theorem sourceAnswer_cfg (a : TrngAnswer) (s : State) : (sourceAnswer a s).cfg = s.cfg := by
  obtain ⟨-, h⟩ | ⟨-, h⟩ := sourceAnswer_cases a s <;> rw [h]

@[simp] theorem scratchWork_cfg (a : Nat) (v : Byte) (s : State) : (scratchWork a v s).cfg = s.cfg := by
  unfold scratchWork; split <;> rfl

/-- The engine waits or completes by `finish`; neither touches the parameters. -/
theorem exec_cfg {i : Instr} {s t : State} (h : exec i s = .next t) : t.cfg = s.cfg := by
  obtain ⟨-, -, rfl⟩ | ⟨code, out, rfl⟩ := exec_cases h
  · rfl
  · exact finish_cfg code out s

/-- Each of the seven turns starts from `beginStep s` and keeps the parameters. -/
theorem step_cfg {s t : State} (h : step s = .next t) : t.cfg = s.cfg := by
  obtain ⟨-, -, he⟩ | ⟨-, -, rfl⟩ | ⟨-, rfl⟩ | ⟨a, -, rfl⟩ | ⟨a, v, -, rfl⟩ | ⟨-, rfl⟩ | ⟨-, rfl⟩ | ⟨-, rfl⟩ :=
    step_cases h
  case inl => exact (exec_cfg he).trans (beginStep_cfg s)
  all_goals simp

end Sys2Proof.Machine

namespace Sys2Proof.Proofs

/-- Settles O50, by the frame of each agent's turn. -/
theorem parametersNeverChange : Obligations.ParametersNeverChange := by
  unfold Obligations.ParametersNeverChange
  exact fun _ _ h => Machine.step_cfg h

end Sys2Proof.Proofs

/-! SUPPORT. No command's output is longer than BUF_SIZE (43_commands.md R167, R168). -/

namespace Sys2Proof.Machine

/-- Each of the blocks of GCTR takes 16 bytes of the input, as far as they reach (40_aes_gcm.md R115). -/
theorem gctrBlocks_length (k : Bytes) (n : Nat) (cb : Block) (x : Bytes) :
    (gctrBlocks k n cb x).length = min x.length (16 * n) := by
  induction n generalizing cb x with
  | zero => simp [gctrBlocks]
  | succ n ih =>
    simp only [gctrBlocks, List.length_append, xorBytes_length, List.length_take, blockBytes_length, ih,
      List.length_drop]
    omega

@[simp] theorem gctr_length (k : Bytes) (icb : Block) (x : Bytes) : (gctr k icb x).length = x.length := by
  rw [gctr, gctrBlocks_length]; omega

@[simp] theorem b64enc_length (b : Bytes) : (b64enc b).length = b64len b.length := by
  induction b using b64enc.induct with
  | case1 => rfl
  | case2 x => simp [b64enc, b64len]
  | case3 x y => simp [b64enc, b64len]
  | case4 x y z rest ih =>
    simp only [b64enc, List.length_cons, ih, b64len]; omega

/-- Four characters give at most three bytes (41_base64.md R144). -/
theorem b64quanta_length_le (s : Bytes) : (b64quanta s).length ≤ s.length := by
  induction s using b64quanta.induct with
  | case1 c0 c1 c2 c3 => simp [b64quanta, b64bytes]; omega
  | case2 c0 c1 c2 c3 rest hne ih =>
    rw [b64quanta]
    · simp [b64bytes]; omega
    · exact hne
  | case3 s h1 h2 =>
    rw [b64quanta]
    · exact Nat.zero_le _
    · exact h1
    · exact h2

theorem b64dec_length_le {s f : Bytes} (h : b64dec s = some f) : f.length ≤ s.length := by
  unfold b64dec at h
  split at h
  · cases h; exact b64quanta_length_le s
  · cases h

@[simp] theorem inputOperand_length (s : State) : (inputOperand s).length = s.inLen.toNat :=
  memory_slice_length _ _ _

/-- A blob text is the text of the plaintext and the 44 bytes around it (30_encoding.md R89). -/
@[simp] theorem encryptText_length (k : Bytes) (d : Vector Byte 28) (p : Bytes) :
    (encryptText k d p).length = b64len (p.length + 44) := by
  simp only [encryptText, b64enc_length, buildFrame_length, drawSalt_length, drawIv_length, gcmAE, gctr_length,
    gcmTag_length]
  congr 1; omega

/-- A frame is longer than the plaintext it opens to (43_commands.md R168). -/
theorem decryptFrame_length_le {k f p : Bytes} (h : decryptFrame k f = some p) : p.length ≤ f.length := by
  unfold decryptFrame gcmAD at h
  split at h
  · cases h; simp [frameCiphertext]
  · cases h

/-- ENCRYPT's capacity check bounds its output (43_commands.md R167). -/
theorem encryptBody_output_le {s : State} {code : ErrCode} {bs : Bytes}
    (h : encryptBody s = some (code, some bs)) : bs.length ≤ s.cfg.bufSize := by
  unfold encryptBody at h
  split at h
  · cases h
  split at h
  · cases h
  next hfit =>
    split at h
    · cases h
    · cases h
    · cases h; simpa [encryptFits, Config.frameOverhead] using hfit

/-- DECRYPT's capacity check bounds its output (43_commands.md R168). -/
theorem decryptBody_output_le {s : State} {bs : Bytes} (h : (decryptBody s).2 = some bs) :
    bs.length ≤ s.cfg.bufSize := by
  unfold decryptBody at h
  split at h
  · cases h
  split at h
  · cases h
  next hfit =>
    have hin : s.inLen.toNat ≤ s.cfg.bufSize := by simpa [decryptFits] using hfit
    split at h
    · cases h
    next f hf =>
      have hlen := b64dec_length_le hf
      rw [inputOperand_length] at hlen
      split at h
      · cases h
      split at h
      · cases h
      next p hp => cases h; exact (decryptFrame_length_le hp).trans (hlen.trans hin)

/-- `exec_cases` with the bound on what a completion publishes. -/
theorem exec_output_le {i : Instr} {s t : State} (h : exec i s = .next t) :
    t = s ∨ ∃ code out, t = finish code out s ∧ ∀ bs, out = some bs → bs.length ≤ s.cfg.bufSize := by
  cases i with
  | encrypt =>
    simp only [exec, execEncrypt] at h
    split at h
    · cases h; exact .inl rfl
    next r hr =>
      cases h
      exact .inr ⟨r.1, r.2, rfl, fun bs hbs => encryptBody_output_le (code := r.1) (by rw [hr, ← hbs])⟩
  | decrypt => cases h; exact .inr ⟨_, _, rfl, fun bs => decryptBody_output_le⟩
  | wipe => cases h; exact .inr ⟨_, none, rfl, by simp⟩
  | illegal w => cases h; exact .inr ⟨_, none, rfl, by simp⟩

end Sys2Proof.Machine

/-! SUPPORT. The machine's invariant under each shared operation (20_memory.md R67 to R73; 10_state.md R48). -/

namespace Sys2Proof.Machine

/-- A word at a word-aligned offset of a buffer of whole words stays inside the buffer. -/
theorem memory_within_writeWord {n : Nat} {m : Memory} {o : Nat} (v : Word) (h : Memory.within n m = true)
    (ho : o + 4 ≤ n) : Memory.within n (Memory.writeWord m o v) = true :=
  memory_within_writeBytes h ho

/-- Bytes written to an empty buffer end where they end. -/
theorem memory_within_length_writeBytes (bs : Bytes) :
    Memory.within bs.length (Memory.writeBytes [] 0 bs) = true :=
  memory_within_writeBytes (memory_within_nil _) (by omega)

/-- While reset is not held there is nothing to show of it. -/
theorem heldAtReset_of_released {s : State} (h : s.inReset = false) : HeldAtReset s := by
  intro hr; rw [h] at hr; cases hr

/-- The invariant does not look at the program, the schedule, the response or the count of draws: they are no
state of AEADC (log 3, log 6). -/
theorem invariant_outside {s : State} (h : Invariant s) (n : Nat) (p : List HostOp) (q : List Turn)
    (r : Response) : Invariant { s with draws := n, prog := p, sched := q, resp := r } := by
  obtain ⟨hcfg, hwf, hin, hidle, hbusy, herr, hcode, htrng, hheld⟩ := h
  exact ⟨hcfg, hwf, hin, hidle, hbusy, herr, hcode, htrng,
    fun hr => congrArg (fun u : State => { u with draws := n, prog := p, sched := q, resp := r }) (hheld hr)⟩

/-- Reset gives every component a value that meets the invariant, and is no change to itself. -/
theorem invariant_resetBlock {s : State} (hcfg : s.cfg.Legal) (b : Bool) :
    Invariant { resetBlock s with inReset := b } := by
  refine ⟨hcfg, ⟨rfl, rfl, rfl, rfl⟩, ⟨rfl, rfl, rfl, Nat.zero_le _⟩, fun _ => ⟨rfl, rfl, rfl⟩, ?_,
    fun _ => ⟨rfl, rfl⟩, Nat.zero_le _, fun h => absurd rfl h, fun _ => rfl⟩
  intro hb; cases hb

/-- An offset of the KEY window that is a multiple of 4 names a whole word of KEY_BUF, and one of the IN window
below BUF_SIZE a whole word of IN_BUF, because BUF_SIZE is a multiple of 4 (00_scope.md R8). A guarded write
takes effect only while IDLE, when no draw is outstanding that its operands could enable or disable. -/
theorem invariant_hostWrite {s : State} (h : Invariant s) (hr : s.inReset = false) {off : Nat}
    (h4 : off % 4 = 0) (v : Word) : Invariant (hostWrite s off v) := by
  obtain ⟨hcfg, hwf, hin, hidle, hbusy, herr, hcode, htrng, -⟩ := h
  have ⟨hwk, hwi, hwo, hws⟩ := hwf
  have ⟨hik, hii, hio, hil⟩ := hin
  have noDraw : s.fsm = .idle → ∀ {p : Prop}, s.trng ≠ none → p := by
    intro hf p ht
    obtain ⟨-, -, hnone⟩ := hidle hf
    exact absurd hnone ht
  obtain ⟨hf, hw⟩ | hw | hw | ⟨hf, hw | hw | hw | ⟨hlo, hhi, hw⟩ | ⟨hlo, hhi, hw⟩⟩ | hw :=
    hostWrite_cases s off v <;> rw [hw]
  · -- a guarded write while BUSY
    exact ⟨hcfg, hwf, hin, hidle, hbusy, herr, hcode, htrng, heldAtReset_of_released hr⟩
  · -- CTRL
    exact ⟨hcfg, hwf, hin, hidle, hbusy, herr, hcode, htrng, heldAtReset_of_released hr⟩
  · -- STATUS
    have hdone : BusyPublishesNothing (acknowledge v s) := by
      intro hb
      obtain ⟨hd, hrest⟩ := hbusy hb
      exact ⟨by simp [hd], hrest⟩
    exact ⟨hcfg, hwf, hin, hidle, hdone, herr, hcode, htrng, heldAtReset_of_released hr⟩
  · -- CMD
    exact ⟨hcfg, ⟨hwk, hwi, rfl, hws⟩, ⟨hik, hii, rfl, Nat.zero_le _⟩, nofun, fun _ => ⟨rfl, rfl, rfl, rfl⟩,
      fun _ => ⟨rfl, rfl⟩, Nat.zero_le _, noDraw hf, heldAtReset_of_released hr⟩
  · -- KEY_LEN
    exact ⟨hcfg, hwf, hin, hidle, hbusy, herr, hcode, noDraw hf, heldAtReset_of_released hr⟩
  · -- IN_LEN
    exact ⟨hcfg, hwf, hin, hidle, hbusy, herr, hcode, noDraw hf, heldAtReset_of_released hr⟩
  · -- the KEY window
    have hword : off - Config.offKey + 4 ≤ Config.keyBytes := by
      simp only [Config.offKey, Config.offKeyEnd, Config.keyBytes] at hlo hhi ⊢; omega
    exact ⟨hcfg, ⟨memory_wf_writeWord _ v hwk, hwi, hwo, hws⟩, ⟨memory_within_writeWord v hik hword, hii, hio, hil⟩,
      hidle, hbusy, herr, hcode, noDraw hf, heldAtReset_of_released hr⟩
  · -- the IN window
    have hword : off - Config.offIn + 4 ≤ s.cfg.bufSize := by
      have hsize := hcfg.1
      simp only [Config.offIn] at hlo hhi ⊢; omega
    exact ⟨hcfg, ⟨hwk, memory_wf_writeWord _ v hwi, hwo, hws⟩, ⟨hik, memory_within_writeWord v hii hword, hio, hil⟩,
      hidle, hbusy, herr, hcode, noDraw hf, heldAtReset_of_released hr⟩
  · -- no effect
    exact ⟨hcfg, hwf, hin, hidle, hbusy, herr, hcode, htrng, heldAtReset_of_released hr⟩

theorem reaches_iff (s : State) (a : Access) :
    reaches s a = true ↔ s.cfg.baseAddr ≤ a.addr ∧ a.addr - s.cfg.baseAddr < 0x30000 := by
  simp [reaches, Config.aperture]

theorem legalAccess_iff (s : State) (a : Access) :
    legalAccess s a = true ↔ a.size = .word ∧ (a.addr - s.cfg.baseAddr) % 4 = 0 := by
  simp [legalAccess]

/-- A bus access changes the response, or is a legal write at a multiple of 4 with reset released. -/
theorem invariant_busAccess {s : State} (h : Invariant s) (a : Access) : Invariant (busAccess a s) := by
  obtain ⟨r, hb⟩ | ⟨-, hl, hr, v, -, hb⟩ := busAccess_cases a s
  · rw [hb]; exact invariant_outside h _ _ _ _
  · obtain ⟨-, h4⟩ := (legalAccess_iff s a).1 hl
    rw [hb]; exact invariant_outside (invariant_hostWrite h hr h4 v) _ _ _ _

theorem invariant_hostTurn {s : State} (h : Invariant s) : Invariant (hostTurn s) := by
  obtain ⟨p, ht⟩ | ⟨a, p, ht⟩ := hostTurn_cases s
  · rw [ht]; exact invariant_outside h _ _ _ _
  · rw [ht]; exact invariant_outside (invariant_busAccess h a) _ _ _ _

theorem engineRuns_iff (s : State) : engineRuns s = true ↔ s.fsm = .busy ∧ s.inReset = false := by
  simp [engineRuns]

/-- Only a command that the engine works on draws (42_trng.md R158). -/
theorem engineRuns_of_wantsDraw {s : State} (h : wantsDraw s = true) : engineRuns s = true := by
  simp only [wantsDraw, Bool.and_eq_true] at h
  obtain ⟨⟨⟨hruns, -⟩, -⟩, -⟩ := h
  exact hruns

/-- An answer is taken only while a draw is wanted, which it does not change (42_trng.md R158). -/
theorem invariant_sourceAnswer {s : State} (h : Invariant s) (a : TrngAnswer) : Invariant (sourceAnswer a s) := by
  obtain ⟨hd, ha⟩ | ⟨-, ha⟩ := sourceAnswer_cases a s
  case inr => rw [ha]; exact h
  obtain ⟨hcfg, hwf, hin, hidle, hbusy, herr, hcode, -, -⟩ := h
  have hwant : wantsDraw s = true := by simp only [drawOutstanding, Bool.and_eq_true] at hd; exact hd.1
  obtain ⟨hf, hr⟩ := (engineRuns_iff s).1 (engineRuns_of_wantsDraw hwant)
  have notIdle : ∀ {p : Prop}, s.fsm = .idle → p := fun hi => by rw [hf] at hi; cases hi
  rw [ha]
  exact ⟨hcfg, hwf, hin, notIdle, hbusy, herr, hcode, fun _ => hwant, heldAtReset_of_released hr⟩

/-- Scratch may take any byte while a command is in flight (93 U10). -/
theorem invariant_scratchWork {s : State} (h : Invariant s) (a : Nat) (v : Byte) :
    Invariant (scratchWork a v s) := by
  unfold scratchWork
  split
  next hruns =>
    obtain ⟨hcfg, ⟨hwk, hwi, hwo, hws⟩, hin, hidle, hbusy, herr, hcode, htrng, -⟩ := h
    obtain ⟨hf, hr⟩ := (engineRuns_iff s).1 hruns
    have notIdle : ∀ {p : Prop}, s.fsm = .idle → p := fun hi => by rw [hf] at hi; cases hi
    exact ⟨hcfg, ⟨hwk, hwi, hwo, memory_wf_write a v hws⟩, hin, notIdle, hbusy, herr, hcode, htrng,
      heldAtReset_of_released hr⟩
  next => exact h

/-- What `publish` can do: store an output on code 0, or nothing (43_commands.md R166). -/
theorem publish_cases (code : ErrCode) (out : Option Bytes) (s : State) :
    (∃ bs, code = .ok ∧ out = some bs) ∨ publish code out s = s := by
  unfold publish
  split
  next bs => exact .inl ⟨bs, rfl, rfl⟩
  next => exact .inr rfl

theorem errNumber_toNat_le (code : ErrCode) : (errNumber code).toNat ≤ 6 := by
  cases code <;> decide

/-- A completion publishes to an OUT_BUF that the acceptance emptied, so the output is all that it holds, and
wipes the rest (10_state.md R48; 43_commands.md R166, R169). -/
theorem invariant_finish {s : State} (h : Invariant s) (hf : s.fsm = .busy) (hr : s.inReset = false)
    {code : ErrCode} {out : Option Bytes} (hlen : ∀ bs, out = some bs → bs.length ≤ s.cfg.bufSize) :
    Invariant (finish code out s) := by
  obtain ⟨hcfg, -, -, -, hbusy, -⟩ := h
  obtain ⟨-, -, hol, hob⟩ := hbusy hf
  have held : HeldAtReset (finish code out s) := heldAtReset_of_released (by simp [hr])
  obtain ⟨bs, rfl, rfl⟩ | hp := publish_cases code out s
  · have hle := hlen bs rfl
    have hout : (BitVec.ofNat 32 bs.length).toNat = bs.length := by
      rw [BitVec.toNat_ofNat]; exact Nat.mod_eq_of_lt (by have := hcfg.2.2; omega)
    refine ⟨hcfg, ⟨rfl, rfl, ?_, rfl⟩, ⟨rfl, rfl, ?_, ?_⟩, fun _ => ⟨rfl, rfl, rfl⟩, nofun,
      fun he => absurd rfl he, Nat.zero_le _, fun ht => absurd rfl ht, held⟩
    · simpa [hob] using memory_wf_writeBytes 0 bs memory_wf_nil
    · simpa [hob, hout] using memory_within_length_writeBytes bs
    · simpa [hout] using hle
  · have hlen0 : (finish code out s).outLen = 0 := by rw [finish_outLen, hp, hol]
    have hbuf0 : (finish code out s).outBuf = [] := by rw [finish_outBuf, hp, hob]
    refine ⟨by simpa using hcfg, ⟨rfl, rfl, by rw [hbuf0]; rfl, rfl⟩,
      ⟨rfl, rfl, by rw [hbuf0]; rfl, by rw [hlen0]; exact Nat.zero_le _⟩,
      fun _ => ⟨rfl, rfl, rfl⟩, nofun, fun _ => ⟨hlen0, hbuf0⟩, errNumber_toNat_le code,
      fun ht => absurd rfl ht, held⟩

/-- The engine waits, or completes a command whose output fits (43_commands.md R166). -/
theorem invariant_exec {i : Instr} {s t : State} (h : Invariant s) (hruns : engineRuns s = true)
    (he : exec i s = .next t) : Invariant t := by
  obtain ⟨hf, hr⟩ := (engineRuns_iff s).1 hruns
  obtain rfl | ⟨code, out, rfl, hlen⟩ := exec_output_le he
  · exact h
  · exact invariant_finish h hf hr hlen

theorem releaseResetTurn_of_released {s : State} (hr : s.inReset = false) : releaseResetTurn s = s := by
  rw [releaseResetTurn, ← hr]

/-- Releasing the line leaves the components as they are (70_reset_and_hazards.md R207). -/
theorem invariant_releaseResetTurn {s : State} (h : Invariant s) : Invariant (releaseResetTurn s) := by
  obtain ⟨hcfg, hwf, hin, hidle, hbusy, herr, hcode, htrng, -⟩ := h
  have answerToDraw : AnswerOnlyToDraw (releaseResetTurn s) := by
    intro ht
    obtain ⟨-, hr⟩ := (engineRuns_iff s).1 (engineRuns_of_wantsDraw (htrng ht))
    rw [releaseResetTurn_of_released hr]
    exact htrng ht
  exact ⟨hcfg, hwf, hin, hidle, hbusy, herr, hcode, answerToDraw, heldAtReset_of_released rfl⟩

/-- Every turn begins in a state that meets the invariant, and its agent keeps it (60_exceptions.md R192). -/
theorem invariant_step {s t : State} (h : Invariant s) (hs : step s = .next t) : Invariant t := by
  have hb : Invariant (beginStep s) := invariant_outside h _ _ _ _
  have hcfg : (beginStep s).cfg.Legal := hb.1
  obtain ⟨-, hruns, he⟩ | ⟨-, -, rfl⟩ | ⟨-, rfl⟩ | ⟨a, -, rfl⟩ | ⟨a, v, -, rfl⟩ | ⟨-, rfl⟩ | ⟨-, rfl⟩ | ⟨-, rfl⟩ :=
    step_cases hs
  · exact invariant_exec hb hruns he
  · exact hb
  · exact invariant_hostTurn hb
  · exact invariant_sourceAnswer hb a
  · exact invariant_scratchWork hb a v
  · exact invariant_resetBlock hcfg false
  · exact invariant_resetBlock hcfg true
  · exact invariant_releaseResetTurn hb

end Sys2Proof.Machine

namespace Sys2Proof.Proofs

open Machine

/-- Settles O52, by the invariant under each agent's turn. -/
theorem everyStepKeepsTheInvariant : Obligations.EveryStepKeepsTheInvariant := by
  unfold Obligations.EveryStepKeepsTheInvariant
  exact fun _ _ => invariant_step

/-- Settles O53: right after reset every buffer is empty, the block is IDLE and BUF_SIZE is 4096 (log 1). -/
theorem invariantHoldsAtReset : Obligations.InvariantHoldsAtReset := by
  unfold Obligations.InvariantHoldsAtReset
  exact invariant_resetBlock (s := State.reset) (by decide) false

end Sys2Proof.Proofs

/-! SUPPORT. What a legal write does at each place of the register map (10_state.md R24 to R40; 20_memory.md R64). -/

namespace Sys2Proof.Machine

/-- The guarded locations, by their offsets (20_memory.md R64). -/
theorem guarded_iff (off : Nat) :
    guarded off = true ↔
      off = 0x010 ∨ off = 0x014 ∨ off = 0x018 ∨ (0x100 ≤ off ∧ off < 0x120) ∨ (0x10000 ≤ off ∧ off < 0x20000) := by
  simp only [guarded, Config.offCmd, Config.offKeyLen, Config.offInLen, Config.offKey, Config.offKeyEnd,
    Config.offIn, Config.offOut, Bool.or_eq_true, Bool.and_eq_true, beq_iff_eq, decide_eq_true_eq, or_assoc]

theorem isBusy_of_idle {s : State} (h : s.fsm = .idle) : isBusy s = false := by
  simp [isBusy, h]

theorem hostWrite_ctrl (s : State) (v : Word) : hostWrite s 0x008 v = { s with ie := v.getLsbD 0 } := rfl

theorem hostWrite_status (s : State) (v : Word) : hostWrite s 0x00C v = acknowledge v s := rfl

theorem hostWrite_cmd {s : State} (v : Word) (h : s.fsm = .idle) : hostWrite s 0x010 v = accept v s := by
  simp [hostWrite, isBusy_of_idle h]

theorem hostWrite_keyLen {s : State} (v : Word) (h : s.fsm = .idle) :
    hostWrite s 0x014 v = { s with keyLen := v } := by
  simp [hostWrite, isBusy_of_idle h]

theorem hostWrite_inLen {s : State} (v : Word) (h : s.fsm = .idle) :
    hostWrite s 0x018 v = { s with inLen := v } := by
  simp [hostWrite, isBusy_of_idle h]

/-- From offset 0x020 on there are the two windows that a write reaches, and nothing else. -/
theorem hostWrite_window {s : State} {off : Nat} (v : Word) (hg : (guarded off && isBusy s) = false)
    (hoff : 0x020 ≤ off) :
    hostWrite s off v =
      if 0x100 ≤ off ∧ off < 0x120 then { s with keyBuf := Memory.writeWord s.keyBuf (off - 0x100) v }
      else if 0x10000 ≤ off ∧ off < 0x20000 then
        if off - 0x10000 < s.cfg.bufSize then { s with inBuf := Memory.writeWord s.inBuf (off - 0x10000) v } else s
      else s := by
  have noRegister : ∀ r < 0x020, ¬off = r := fun r hr => by omega
  rw [hostWrite, hg, if_neg (by simp), if_neg (noRegister _ (by decide)), if_neg (noRegister _ (by decide)),
    if_neg (noRegister _ (by decide)), if_neg (noRegister _ (by decide)), if_neg (noRegister _ (by decide))]

/-- KEY_BUF is the window at 0x100 (10_state.md R38). -/
theorem hostWrite_keyWindow {s : State} {o : Nat} (v : Word) (h : s.fsm = .idle) (ho : o < 0x20) :
    hostWrite s (0x100 + o) v = { s with keyBuf := Memory.writeWord s.keyBuf o v } := by
  rw [hostWrite_window v (by simp [isBusy_of_idle h]) (by omega), if_pos (by omega), Nat.add_sub_cancel_left]

/-- IN_BUF is the first BUF_SIZE bytes of the window at 0x10000 (10_state.md R39). -/
theorem hostWrite_inWindow {s : State} {o : Nat} (v : Word) (h : s.fsm = .idle) (ho : o < 0x10000) :
    hostWrite s (0x10000 + o) v
      = if o < s.cfg.bufSize then { s with inBuf := Memory.writeWord s.inBuf o v } else s := by
  rw [hostWrite_window v (by simp [isBusy_of_idle h]) (by omega), if_neg (by omega), if_pos (by omega),
    Nat.add_sub_cancel_left]

/-- A reserved or read-only offset takes no write (10_state.md R24, R25). -/
theorem hostWrite_ignored {s : State} {off : Nat} (v : Word)
    (h : off = 0x000 ∨ off = 0x004 ∨ off = 0x01C ∨ (0x020 ≤ off ∧ off < 0x100) ∨ (0x120 ≤ off ∧ off < 0x10000)
      ∨ 0x20000 ≤ off) : hostWrite s off v = s := by
  have hg : guarded off = false := by
    rw [Bool.eq_false_iff, ne_eq, guarded_iff]; omega
  by_cases hoff : 0x020 ≤ off
  · rw [hostWrite_window v (by simp [hg]) hoff, if_neg (by omega), if_neg (by omega)]
  · obtain rfl | rfl | rfl : off = 0x000 ∨ off = 0x004 ∨ off = 0x01C := by omega
    · rfl
    · rfl
    · rfl

/-- Byte b of a word is bits [8b+7 : 8b] (20_memory.md R65). -/
theorem wordBytes_getD (v : Word) {b : Nat} (hb : b < 4) : (wordBytes v).getD b 0 = v.extractLsb' (8 * b) 8 := by
  match b, hb with
  | 0, _ => rfl
  | 1, _ => rfl
  | 2, _ => rfl
  | 3, _ => rfl

/-- A word written at `o` is read back byte by byte (20_memory.md R65). -/
theorem memory_read_writeWord_same (m : Memory) (o : Nat) (v : Word) {b : Nat} (hb : b < 4) :
    Memory.read (Memory.writeWord m o v) (o + b) = v.extractLsb' (8 * b) 8 := by
  rw [Memory.writeWord, memory_read_writeBytes, wordBytes_length, if_pos (by omega), Nat.add_sub_cancel_left,
    wordBytes_getD v hb]

/-- A word written at `o` leaves every byte outside it (20_memory.md R65). -/
theorem memory_read_writeWord_other (m : Memory) {o a : Nat} (v : Word) (ha : a < o ∨ o + 4 ≤ a) :
    Memory.read (Memory.writeWord m o v) a = Memory.read m a := by
  rw [Memory.writeWord, memory_read_writeBytes, wordBytes_length, if_neg (by omega)]

/-- CMD, the KEY and IN windows and the reserved offsets read 0 (20_memory.md R63). -/
theorem hostRead_zero (s : State) {off : Nat} (h : off = 0x010 ∨ (0x020 ≤ off ∧ off < 0x20000)) :
    hostRead s off = 0 := by
  have noRegister : ∀ r < 0x020, r ≠ 0x010 → ¬off = r := fun r hr hne => by omega
  have noOut : ¬(0x20000 ≤ off ∧ off < 0x30000) := by omega
  simp only [hostRead, if_neg (noRegister Config.offId (by decide) (by decide)),
    if_neg (noRegister Config.offCaps (by decide) (by decide)), if_neg (noRegister Config.offCtrl (by decide) (by decide)),
    if_neg (noRegister Config.offStatus (by decide) (by decide)),
    if_neg (noRegister Config.offKeyLen (by decide) (by decide)),
    if_neg (noRegister Config.offInLen (by decide) (by decide)),
    if_neg (noRegister Config.offOutLen (by decide) (by decide)), if_neg noOut]

/-! SUPPORT. The words of CTRL and STATUS, bit by bit (10_state.md R28, R29). -/

theorem flagWord_getLsbD (b : Bool) (i : Nat) : (flagWord b).getLsbD i = (decide (i = 0) && b) := by
  cases b <;> cases i <;> simp [flagWord]

/-- CTRL is the bit of the word written to it (10_state.md R28). -/
theorem flagWord_getLsbD_zero (v : Word) : flagWord (v.getLsbD 0) = v &&& 1 := by
  apply BitVec.eq_of_getLsbD_eq
  intro i hi
  rw [flagWord_getLsbD, BitVec.getLsbD_and]
  cases i <;> simp

theorem statusWord_getLsbD (s : State) {i : Nat} (hi : i < 32) :
    (statusWord s).getLsbD i =
      ((decide (8 ≤ i) && s.err.getLsbD (i - 8)) || (decide (i = 2) && s.accErr) || (decide (i = 1) && s.done)
        || (decide (i = 0) && isBusy s)) := by
  simp only [statusWord, flagWord_getLsbD, BitVec.getLsbD_or, BitVec.getLsbD_shiftLeft, BitVec.getLsbD_setWidth, hi]
  match i with
  | 0 => simp
  | 1 => simp
  | 2 => simp
  | j + 3 =>
    have h8 : (!decide (j + 3 < 8)) = decide (8 ≤ j + 3) := by
      rw [← decide_not]; exact decide_eq_decide.2 Nat.not_lt
    simp [h8, show j - 5 < 32 by omega]

/-- STATUS is ERR in bits [11:8], ACCERR, DONE and BUSY in bits 2, 1 and 0, and zeros (10_state.md R29). -/
theorem statusWord_fields (s : State) :
    (statusWord s).getLsbD 0 = isBusy s ∧ (statusWord s).getLsbD 1 = s.done ∧ (statusWord s).getLsbD 2 = s.accErr
      ∧ (statusWord s).extractLsb' 8 4 = s.err ∧ (statusWord s).extractLsb' 3 5 = 0
      ∧ (statusWord s).extractLsb' 12 20 = 0 := by
  refine ⟨?_, ?_, ?_, ?_, ?_, ?_⟩
  · rw [statusWord_getLsbD s (by decide)]; simp
  · rw [statusWord_getLsbD s (by decide)]; simp
  · rw [statusWord_getLsbD s (by decide)]; simp
  · ext i hi
    simp [statusWord_getLsbD s (show 8 + i < 32 by omega), hi, show ¬8 + i = 2 by omega, show ¬8 + i = 1 by omega]
  · ext i hi
    simp [statusWord_getLsbD s (show 3 + i < 32 by omega), show ¬8 ≤ 3 + i by omega, show ¬3 + i = 2 by omega,
      show ¬3 + i = 1 by omega]
  · ext i hi
    simp [statusWord_getLsbD s (show 12 + i < 32 by omega), BitVec.getLsbD_of_ge s.err (12 + i - 8) (by omega),
      show ¬12 + i = 2 by omega, show ¬12 + i = 1 by omega]

/-! SUPPORT. Legal accesses outside reset and while it is held (20_memory.md R63, R64; 70_reset_and_hazards.md R205). -/

/-- A legal read while reset is held gives 0 (70_reset_and_hazards.md R205). -/
theorem readAt_held {s : State} {off : Nat} (hr : s.inReset = true) (h4 : off % 4 = 0) (hlt : off < 0x30000) :
    readAt off s = { s with resp := .data 0 } := by
  rw [readAt, busAccess_accessAt s .read h4 hlt, legalEffect, hr]
  rfl

/-- A legal write while reset is held has no effect (70_reset_and_hazards.md R205). -/
theorem writeAt_held {s : State} {off : Nat} (v : Word) (hr : s.inReset = true) (h4 : off % 4 = 0)
    (hlt : off < 0x30000) : writeAt off v s = { s with resp := .written } := by
  rw [writeAt, busAccess_accessAt s (.write v) h4 hlt]
  simp [legalEffect, hr]

theorem writeAt_ctrl {s : State} (v : Word) (hr : s.inReset = false) :
    writeAt 0x008 v s = { s with ie := v.getLsbD 0, resp := .written } := by
  rw [writeAt_eq v hr (by decide) (by decide), hostWrite_ctrl]

theorem writeAt_status {s : State} (v : Word) (hr : s.inReset = false) :
    writeAt 0x00C v s = { acknowledge v s with resp := .written } := by
  rw [writeAt_eq v hr (by decide) (by decide), hostWrite_status]

theorem writeAt_keyLen {s : State} (v : Word) (hf : s.fsm = .idle) (hr : s.inReset = false) :
    writeAt 0x014 v s = { s with keyLen := v, resp := .written } := by
  rw [writeAt_eq v hr (by decide) (by decide), hostWrite_keyLen v hf]

theorem writeAt_inLen {s : State} (v : Word) (hf : s.fsm = .idle) (hr : s.inReset = false) :
    writeAt 0x018 v s = { s with inLen := v, resp := .written } := by
  rw [writeAt_eq v hr (by decide) (by decide), hostWrite_inLen v hf]

theorem writeAt_keyWindow {s : State} {o : Nat} (v : Word) (hf : s.fsm = .idle) (hr : s.inReset = false)
    (h4 : o % 4 = 0) (ho : o < 0x20) :
    writeAt (0x100 + o) v s = { s with keyBuf := Memory.writeWord s.keyBuf o v, resp := .written } := by
  rw [writeAt_eq v hr (by omega) (by omega), hostWrite_keyWindow v hf ho]

theorem writeAt_inWindow {s : State} {o : Nat} (v : Word) (hf : s.fsm = .idle) (hr : s.inReset = false)
    (h4 : o % 4 = 0) (ho : o < 0x10000) (hb : o < s.cfg.bufSize) :
    writeAt (0x10000 + o) v s = { s with inBuf := Memory.writeWord s.inBuf o v, resp := .written } := by
  rw [writeAt_eq v hr (by omega) (by omega), hostWrite_inWindow v hf ho, if_pos hb]

/-- A place that reads 0 reads 0 in every state outside reset (20_memory.md R63). -/
theorem readAt_zero {s : State} {off : Nat} (hr : s.inReset = false) (h4 : off % 4 = 0)
    (h : off = 0x010 ∨ (0x020 ≤ off ∧ off < 0x20000)) : (readAt off s).resp = .data 0 := by
  rw [readAt_eq hr h4 (by omega), hostRead_zero s h]

theorem readAt_ctrl {s : State} (hr : s.inReset = false) : (readAt 0x008 s).resp = .data (ctrlWord s) := by
  rw [readAt_eq hr (by decide) (by decide)]
  rfl

theorem readAt_keyLen {s : State} (hr : s.inReset = false) : (readAt 0x014 s).resp = .data s.keyLen := by
  rw [readAt_eq hr (by decide) (by decide)]
  rfl

theorem readAt_inLen {s : State} (hr : s.inReset = false) : (readAt 0x018 s).resp = .data s.inLen := by
  rw [readAt_eq hr (by decide) (by decide)]
  rfl

end Sys2Proof.Machine

namespace Sys2Proof.Proofs

open Machine

/-- Settles O35, by the register's write and the bits of its word. -/
theorem statusIsWriteOneToClear : Obligations.StatusIsWriteOneToClear := by
  unfold Obligations.StatusIsWriteOneToClear
  intro s v hr
  obtain ⟨hbusy, hdone, hacc, herr, hlow, hhigh⟩ := statusWord_fields s
  refine ⟨?_, ?_, hdone, hacc, herr, hlow, hhigh, rfl⟩
  · rw [writeAt_status v hr, acknowledge]
    cases v.getLsbD 1 <;> cases v.getLsbD 2 <;> simp
  · rw [hbusy]; exact Bool.beq_eq_decide_eq _ _

/-- Settles O36, by the register's write and the word it reads back as. -/
theorem ctrlHoldsTheInterruptEnable : Obligations.CtrlHoldsTheInterruptEnable := by
  unfold Obligations.CtrlHoldsTheInterruptEnable
  intro s v hr
  refine ⟨writeAt_ctrl v hr, ?_, rfl⟩
  rw [writeAt_ctrl v hr, ← flagWord_getLsbD_zero]
  exact readAt_ctrl hr

/-- Settles O37, by the two registers' writes. -/
theorem lengthRegistersHoldWhatIsWritten : Obligations.LengthRegistersHoldWhatIsWritten := by
  unfold Obligations.LengthRegistersHoldWhatIsWritten
  intro s v hf hr
  refine ⟨writeAt_keyLen v hf hr, ?_, writeAt_inLen v hf hr, ?_⟩
  · rw [writeAt_keyLen v hf hr]; exact readAt_keyLen hr
  · rw [writeAt_inLen v hf hr]; exact readAt_inLen hr

/-- Settles O38, by the bytes of a written word. -/
theorem keyWindowWritesKeyBytes : Obligations.KeyWindowWritesKeyBytes := by
  unfold Obligations.KeyWindowWritesKeyBytes
  intro s j v hf hr hj
  have hw := writeAt_keyWindow (o := 4 * j) v hf hr (by omega) (by omega)
  rw [hw]
  exact ⟨rfl, fun b hb => memory_read_writeWord_same s.keyBuf (4 * j) v hb,
    fun a ha => memory_read_writeWord_other s.keyBuf v ha, readAt_zero hr (by omega) (by omega), fun _ _ => rfl⟩

/-- Settles O39, by the bytes of a written word. -/
theorem inWindowWritesInputBytes : Obligations.InWindowWritesInputBytes := by
  unfold Obligations.InWindowWritesInputBytes
  intro s o v hf hr h4 ho
  refine ⟨fun hb => ?_, fun hb => ?_, readAt_zero hr (by omega) (by omega)⟩
  · rw [writeAt_inWindow v hf hr h4 ho hb]
    exact ⟨rfl, fun b hb => memory_read_writeWord_same s.inBuf o v hb,
      fun a ha => memory_read_writeWord_other s.inBuf v ha⟩
  · rw [writeAt_eq v hr (by omega) (by omega), hostWrite_inWindow v hf ho, if_neg (by omega)]

/-- Settles O40, by the offsets that take no write and those that read 0. -/
theorem writesToReservedAndReadOnlyOffsetsAreIgnored : Obligations.WritesToReservedAndReadOnlyOffsetsAreIgnored := by
  unfold Obligations.WritesToReservedAndReadOnlyOffsetsAreIgnored
  intro s off v hr h4 hlt
  refine ⟨fun h => ?_, fun h => readAt_zero hr h4 (by omega)⟩
  rw [writeAt_eq v hr h4 hlt, hostWrite_ignored v h]

end Sys2Proof.Proofs

/-! SUPPORT. What can move fsm, DONE and ACCERR: one inversion for a write, an access, a host turn and a step
(10_state.md R22, R31, R32). -/

namespace Sys2Proof.Machine

/-- The sequencer and DONE are the same and no ACCERR is lost. -/
abbrev FlagsKept (s t : State) : Prop :=
  t.fsm = s.fsm ∧ t.done = s.done ∧ (s.accErr = true → t.accErr = true)

theorem flagsKept_ite {c : Prop} [Decidable c] {s t u : State} (h : FlagsKept s t) (h' : FlagsKept s u) :
    FlagsKept s (if c then t else u) := by
  split
  · exact h
  · exact h'

/-- The writes that FlagsKept leaves out: an acceptance at CMD and a write of STATUS (10_state.md R22, R29, R31). -/
abbrev FlagWrite (s : State) (off : Nat) (v : Word) (t : State) : Prop :=
  (off = 0x010 ∧ t = accept v s) ∨ (off = 0x00C ∧ t = acknowledge v s)

/-- Beside an acceptance and a write of STATUS no write moves a flag but a guarded one, which sets ACCERR. -/
theorem hostWrite_flags (s : State) (off : Nat) (v : Word) :
    FlagsKept s (hostWrite s off v) ∨ FlagWrite s off v (hostWrite s off v) := by
  by_cases hstatus : off = 0x00C
  · subst hstatus; exact .inr (.inr ⟨rfl, hostWrite_status s v⟩)
  by_cases hcmd : off = 0x010
  · subst hcmd
    cases hf : s.fsm with
    | idle => exact .inr (.inl ⟨rfl, hostWrite_cmd v hf⟩)
    | busy => rw [hostWrite_guarded v rfl hf]; exact .inl ⟨rfl, rfl, fun _ => rfl⟩
  · left
    unfold hostWrite
    rw [if_neg hstatus, if_neg hcmd]
    refine flagsKept_ite ⟨rfl, rfl, fun _ => rfl⟩ (flagsKept_ite ?_ (flagsKept_ite ?_ (flagsKept_ite ?_
      (flagsKept_ite ?_ (flagsKept_ite (flagsKept_ite ?_ ?_) ?_)))))
    all_goals exact ⟨rfl, rfl, id⟩

/-- An access that moves a flag is a 32-bit write of CMD or STATUS (20_memory.md R60, R62). -/
theorem busAccess_flags (a : Access) (s : State) :
    FlagsKept s (busAccess a s)
      ∨ ∃ off v t, a.size = .word ∧ a.kind = .write v ∧ a.addr = s.cfg.baseAddr + off ∧ FlagWrite s off v t
          ∧ busAccess a s = { t with resp := .written } := by
  obtain ⟨r, hb⟩ | ⟨hreach, hlegal, -, v, hk, hb⟩ := busAccess_cases a s
  · rw [hb]; exact .inl ⟨rfl, rfl, id⟩
  obtain ⟨hbase, -⟩ := (reaches_iff s a).1 hreach
  obtain ⟨hsize, -⟩ := (legalAccess_iff s a).1 hlegal
  rw [hb]
  obtain hkept | hw := hostWrite_flags s (a.addr - s.cfg.baseAddr) v
  · exact .inl hkept
  · exact .inr ⟨a.addr - s.cfg.baseAddr, v, _, hsize, hk, by omega, hw, rfl⟩

/-- The host's turn at `s` that takes it to `t` by a write of CMD or STATUS. -/
def HostFlagTurn (s t : State) : Prop :=
  nextTurn s = .host ∧ ∃ (a : Access) (off : Nat) (v : Word) (u : State), a.size = .word ∧ a.kind = .write v
    ∧ a.addr = s.cfg.baseAddr + off ∧ FlagWrite (beginStep s) off v u
    ∧ t = { busAccess a (beginStep s) with prog := t.prog } ∧ t = { u with prog := t.prog, resp := .written }

/-- A completion by the engine, of the command in cmd_latch (43_commands.md R166). -/
def CompletionTurn (s t : State) : Prop :=
  nextTurn s = .engine ∧ exec (decode s.cmdLatch) (beginStep s) = .next t
    ∧ ∃ code out, t = finish code out (beginStep s)

/-- Everything that can move fsm or DONE, or clear ACCERR, in one step. -/
theorem step_flags {s t : State} (h : step s = .next t) :
    FlagsKept s t ∨ CompletionTurn s t ∨ (nextTurn s = .reset ∧ t = resetTurn (beginStep s))
      ∨ (nextTurn s = .holdReset ∧ t = holdResetTurn (beginStep s)) ∨ HostFlagTurn s t := by
  obtain ⟨hn, -, he⟩ | ⟨-, -, rfl⟩ | ⟨hn, rfl⟩ | ⟨a, -, rfl⟩ | ⟨a, v, -, rfl⟩ | hn | hn | ⟨-, rfl⟩ :=
    step_cases h
  · obtain ⟨-, -, rfl⟩ | hfinish := exec_cases he
    · exact .inl ⟨rfl, rfl, id⟩
    · exact .inr (.inl ⟨hn, he, hfinish⟩)
  · exact .inl ⟨rfl, rfl, id⟩
  · obtain ⟨p, ht⟩ | ⟨a, p, ht⟩ := hostTurn_cases (beginStep s)
    · rw [ht]; exact .inl ⟨rfl, rfl, id⟩
    · obtain hkept | ⟨off, v, u, hsize, hk, haddr, hw, hb⟩ := busAccess_flags a (beginStep s)
      · rw [ht]; exact .inl hkept
      · exact .inr (.inr (.inr (.inr ⟨hn, a, off, v, u, hsize, hk, haddr, hw, by rw [ht], by rw [ht, hb]⟩)))
  · obtain ⟨-, ha⟩ | ⟨-, ha⟩ := sourceAnswer_cases a (beginStep s)
    · rw [ha]; exact .inl ⟨rfl, rfl, id⟩
    · rw [ha]; exact .inl ⟨rfl, rfl, id⟩
  · left
    unfold scratchWork
    split
    · exact ⟨rfl, rfl, id⟩
    · exact ⟨rfl, rfl, id⟩
  · exact .inr (.inr (.inl hn))
  · exact .inr (.inr (.inr (.inl hn)))
  · exact .inl ⟨rfl, rfl, id⟩

end Sys2Proof.Machine

namespace Sys2Proof.Proofs

open Machine

/-- Settles O34: a guarded write while BUSY is ignored, and of the steps that can clear ACCERR a completion and
an acceptance keep it. -/
theorem guardedWriteWhileBusySetsStickyAccErr : Obligations.GuardedWriteWhileBusySetsStickyAccErr := by
  unfold Obligations.GuardedWriteWhileBusySetsStickyAccErr
  constructor
  · intro s off v hf hr h4 hoff
    rw [writeAt_eq v hr h4 (by omega), hostWrite_guarded v ((guarded_iff off).2 hoff) hf]
  · intro s t hstep hs ht
    obtain ⟨-, -, hkept⟩ | ⟨-, -, code, out, rfl⟩ | ⟨hn, -⟩ | ⟨hn, -⟩ |
      ⟨hn, a, off, v, u, -, hk, haddr, ⟨-, rfl⟩ | ⟨rfl, rfl⟩, hbus, hresult⟩ := step_flags hstep
    · rw [hkept hs] at ht; cases ht
    · simp [hs] at ht
    · exact .inl hn
    · exact .inr (.inl hn)
    · rw [hresult] at ht; simp [hs] at ht
    · have hbit : v.getLsbD 2 = true := by
        rw [hresult] at ht; simpa [hs] using ht
      exact .inr (.inr ⟨hn, a, v, hk, hbit, haddr, hbus⟩)

/-- Settles O47: only an acceptance makes the block BUSY, and no write makes it IDLE. -/
theorem sequencerMovesOnlyAsListed : Obligations.SequencerMovesOnlyAsListed := by
  unfold Obligations.SequencerMovesOnlyAsListed
  intro s t hstep
  obtain ⟨hfsm, -, -⟩ | ⟨hn, he, code, out, rfl⟩ | ⟨hn, rfl⟩ | ⟨hn, rfl⟩ |
    ⟨hn, a, off, v, u, hsize, hk, haddr, ⟨rfl, rfl⟩ | ⟨-, rfl⟩, hbus, hresult⟩ := step_flags hstep
  · rw [hfsm]
    exact ⟨fun hi hb => (nomatch hi.symm.trans hb), fun hb hi => (nomatch hb.symm.trans hi)⟩
  · exact ⟨fun _ => nofun, fun _ _ => .inl ⟨hn, he⟩⟩
  · exact ⟨fun _ => nofun, fun _ _ => .inr (.inl hn)⟩
  · exact ⟨fun _ => nofun, fun _ _ => .inr (.inr hn)⟩
  · refine ⟨fun _ _ => ⟨hn, a, v, hsize, hk, haddr, hbus, hresult⟩, fun _ ht => ?_⟩
    rw [hresult] at ht; cases ht
  · have hfsm : t.fsm = s.fsm := by rw [hresult]; rfl
    rw [hfsm]
    exact ⟨fun hi hb => (nomatch hi.symm.trans hb), fun hb hi => (nomatch hb.symm.trans hi)⟩

/-- Settles O48: only a completion sets DONE, and an acceptance, a STATUS write with bit 1 or a reset clears it. -/
theorem doneChangesOnlyAsListed : Obligations.DoneChangesOnlyAsListed := by
  unfold Obligations.DoneChangesOnlyAsListed
  refine ⟨finish_done, fun s t hstep => ?_⟩
  obtain ⟨-, hdone, -⟩ | ⟨hn, he, code, out, rfl⟩ | ⟨hn, rfl⟩ | ⟨hn, rfl⟩ |
    ⟨hn, a, off, v, u, hsize, hk, haddr, ⟨rfl, rfl⟩ | ⟨rfl, rfl⟩, hbus, hresult⟩ := step_flags hstep
  · rw [hdone]
    exact ⟨fun h0 h1 => (nomatch h0.symm.trans h1), fun h1 h0 => (nomatch h1.symm.trans h0)⟩
  · exact ⟨fun _ _ => ⟨hn, he⟩, fun _ => nofun⟩
  · exact ⟨fun _ => nofun, fun _ _ => .inl hn⟩
  · exact ⟨fun _ => nofun, fun _ _ => .inr (.inl hn)⟩
  · refine ⟨fun _ ht => ?_, fun _ _ => .inr (.inr ⟨hn, a, v, hsize, hk, hbus, .inl ⟨haddr, hresult⟩⟩)⟩
    rw [hresult] at ht; cases ht
  · have hdone : t.done = (s.done && !v.getLsbD 1) := by rw [hresult]; rfl
    rw [hdone]
    refine ⟨fun h0 h1 => by simp [h0] at h1, fun h1 h0 => ?_⟩
    have hbit : v.getLsbD 1 = true := by simpa [h1] using h0
    exact .inr (.inr ⟨hn, a, v, hsize, hk, hbus, .inr ⟨haddr, hbit, hresult⟩⟩)

end Sys2Proof.Proofs

/-! SUPPORT. States that differ in secrets alone stay alike under the host's accesses (10_state.md R44). -/

namespace Sys2Proof.Machine

/-- The state with the five components that no host access may observe replaced (10_state.md R44). -/
def withHidden (s : State) (l : Word) (k i c : Memory) (a : Option TrngAnswer) : State :=
  { s with cmdLatch := l, keyBuf := k, inBuf := i, scratch := c, trng := a }

/-- Alike to the host means different in the hidden components at most. -/
theorem sameToHost_iff (s t : State) : SameToHost s t ↔ ∃ l k i c a, t = withHidden s l k i c a := by
  constructor
  · intro ⟨h1, h2, h3, h4, h5, h6, h7, h8, h9, h10, h11, h12, h13, h14, h15⟩
    refine ⟨t.cmdLatch, t.keyBuf, t.inBuf, t.scratch, t.trng, ?_⟩
    rw [withHidden, ← h1, ← h2, ← h3, ← h4, ← h5, ← h6, ← h7, ← h8, ← h9, ← h10, ← h11, ← h12, ← h13, ← h14, ← h15]
  · rintro ⟨l, k, i, c, a, rfl⟩
    exact ⟨rfl, rfl, rfl, rfl, rfl, rfl, rfl, rfl, rfl, rfl, rfl, rfl, rfl, rfl, rfl⟩

/-- No read looks at a hidden component (10_state.md R38, R39, R42, R43). -/
theorem sameToHost_hostRead {s t : State} (h : SameToHost s t) (off : Nat) : hostRead t off = hostRead s off := by
  obtain ⟨l, k, i, c, a, rfl⟩ := (sameToHost_iff s t).1 h
  rfl

theorem sameToHost_irq {s t : State} (h : SameToHost s t) : irq t = irq s := by
  obtain ⟨l, k, i, c, a, rfl⟩ := (sameToHost_iff s t).1 h
  rfl

theorem sameToHost_ite {c : Prop} [Decidable c] {s s' t t' : State} (h : SameToHost s t) (h' : SameToHost s' t') :
    SameToHost (if c then s else s') (if c then t else t') := by
  split
  · exact h
  · exact h'

/-- Which write takes effect, and what it does to the other components, depends on no hidden one. -/
theorem sameToHost_hostWrite {s t : State} (h : SameToHost s t) (off : Nat) (v : Word) :
    SameToHost (hostWrite s off v) (hostWrite t off v) := by
  obtain ⟨l, k, i, c, a, rfl⟩ := (sameToHost_iff s t).1 h
  refine sameToHost_ite ?_ (sameToHost_ite ?_ (sameToHost_ite ?_ (sameToHost_ite ?_ (sameToHost_ite ?_
    (sameToHost_ite ?_ (sameToHost_ite ?_ (sameToHost_ite (sameToHost_ite ?_ ?_) ?_)))))))
  all_goals exact ⟨rfl, rfl, rfl, rfl, rfl, rfl, rfl, rfl, rfl, rfl, rfl, rfl, rfl, rfl, rfl⟩

theorem sameToHost_setResp {s t : State} (h : SameToHost s t) (r : Response) :
    SameToHost { s with resp := r } { t with resp := r } := by
  obtain ⟨l, k, i, c, a, rfl⟩ := (sameToHost_iff s t).1 h
  exact (sameToHost_iff _ _).2 ⟨l, k, i, c, a, rfl⟩

theorem sameToHost_setProg {s t : State} (h : SameToHost s t) (p : List HostOp) :
    SameToHost { s with prog := p } { t with prog := p } := by
  obtain ⟨l, k, i, c, a, rfl⟩ := (sameToHost_iff s t).1 h
  exact (sameToHost_iff _ _).2 ⟨l, k, i, c, a, rfl⟩

/-- A legal access answers alike, whether reset is held or not (20_memory.md R63, R64). -/
theorem sameToHost_legalEffect {s t : State} (h : SameToHost s t) (off : Nat) (k : AccessKind) :
    SameToHost (legalEffect off k s) (legalEffect off k t) := by
  have hreset : t.inReset = s.inReset := by
    obtain ⟨l, k, i, c, a, rfl⟩ := (sameToHost_iff s t).1 h
    rfl
  cases k with
  | read =>
    have hdata : (if t.inReset then 0 else hostRead t off) = if s.inReset then 0 else hostRead s off := by
      rw [hreset, sameToHost_hostRead h off]
    simp only [legalEffect, hdata]
    exact sameToHost_setResp h _
  | write v =>
    by_cases hs : s.inReset = true
    · have ht : t.inReset = true := hreset.trans hs
      simp only [legalEffect, if_pos hs, if_pos ht]
      exact sameToHost_setResp h _
    · have ht : ¬t.inReset = true := by rwa [hreset]
      simp only [legalEffect, if_neg hs, if_neg ht]
      exact sameToHost_setResp (sameToHost_hostWrite h off v) _

theorem sameToHost_busAccess {s t : State} (h : SameToHost s t) (a : Access) :
    SameToHost (busAccess a s) (busAccess a t) := by
  have hcfg : t.cfg = s.cfg := by
    obtain ⟨l, k, i, c, b, rfl⟩ := (sameToHost_iff s t).1 h
    rfl
  have hreach : reaches t a = reaches s a := by rw [reaches, hcfg, reaches]
  have hlegal : legalAccess t a = legalAccess s a := by rw [legalAccess, hcfg, legalAccess]
  have hoff : a.addr - t.cfg.baseAddr = a.addr - s.cfg.baseAddr := by rw [hcfg]
  unfold busAccess
  rw [hreach, hlegal, hoff]
  split
  · exact sameToHost_setResp h _
  split
  · exact sameToHost_setResp h _
  · exact sameToHost_legalEffect h _ _

theorem sameToHost_accessAt {s t : State} (h : SameToHost s t) (off : Nat) (k : AccessKind) :
    SameToHost (busAccess (accessAt s off k) s) (busAccess (accessAt t off k) t) := by
  have haccess : accessAt t off k = accessAt s off k := by
    obtain ⟨l, k, i, c, a, rfl⟩ := (sameToHost_iff s t).1 h
    rfl
  rw [haccess]
  exact sameToHost_busAccess h _

/-- The data of a read, on which the host's program may go on, is the same (30_encoding.md R92, R96). -/
theorem sameToHost_readAt {s t : State} (h : SameToHost s t) (off : Nat) :
    SameToHost (readAt off s) (readAt off t) ∧ respData (readAt off t).resp = respData (readAt off s).resp := by
  have hread : SameToHost (readAt off s) (readAt off t) := sameToHost_accessAt h off .read
  refine ⟨hread, ?_⟩
  obtain ⟨l, k, i, c, a, heq⟩ := (sameToHost_iff _ _).1 hread
  rw [heq]
  rfl

theorem sameToHost_runHostOp {s t : State} (h : SameToHost s t) (op : HostOp) (rest : List HostOp) :
    SameToHost (runHostOp op rest s) (runHostOp op rest t) := by
  cases op with
  | bus a => exact sameToHost_setProg (sameToHost_busAccess h a) rest
  | write off v => exact sameToHost_setProg (sameToHost_accessAt h off (.write v)) rest
  | read off => exact sameToHost_setProg (sameToHost_readAt h off).1 rest
  | poll off mask val =>
    obtain ⟨hread, hdata⟩ := sameToHost_readAt h off
    simp only [runHostOp, hdata]
    split
    · exact sameToHost_setProg hread rest
    · exact hread
  | readout =>
    obtain ⟨hread, hdata⟩ := sameToHost_readAt h Config.offOutLen
    simp only [runHostOp, hdata]
    exact sameToHost_setProg hread _
  | takeResult =>
    obtain ⟨hread, hdata⟩ := sameToHost_readAt h Config.offStatus
    simp only [runHostOp, hdata]
    exact sameToHost_setProg hread _
  | waitIrq =>
    simp only [runHostOp, sameToHost_irq h]
    split
    · exact sameToHost_setProg h rest
    · exact h

theorem sameToHost_hostTurn {s t : State} (h : SameToHost s t) : SameToHost (hostTurn s) (hostTurn t) := by
  have hprog : t.prog = s.prog := by
    obtain ⟨l, k, i, c, a, rfl⟩ := (sameToHost_iff s t).1 h
    rfl
  unfold hostTurn
  rw [hprog]
  split
  · exact h
  · exact sameToHost_runHostOp h _ _

end Sys2Proof.Machine

/-! SUPPORT. A step whose turn the schedule names, and the interrupt line (60_exceptions.md R188, R192). -/

namespace Sys2Proof.Machine

/-- The turn at the head of the schedule is taken with the schedule moved on (60_exceptions.md R192). -/
theorem step_of_sched {s : State} {turn : Turn} {rest : List Turn} (h : s.sched = turn :: rest) :
    step s = runTurn turn { s with sched := rest, resp := .none } := by
  rw [step, nextTurn, beginStep, h]
  rfl

/-- The engine's turn is nothing while reset is held (70_reset_and_hazards.md R205). -/
theorem runTurn_engine_held {s : State} (hr : s.inReset = true) : runTurn .engine s = .next s := by
  simp [runTurn, engineRuns, hr]

/-- A command completes, unless it is an ENCRYPT past its checks whose draw is unanswered (43_commands.md R166;
42_trng.md R163). -/
theorem exec_completes {i : Instr} {s : State}
    (h : ¬(i = .encrypt ∧ s.keyLen = 32 ∧ b64len (s.inLen.toNat + 44) ≤ s.cfg.bufSize ∧ s.trng = none)) :
    ∃ code out, exec i s = .next (finish code out s) := by
  obtain ⟨t, ht⟩ := exec_isNext i s
  obtain ⟨hi, hbody, -⟩ | ⟨code, out, rfl⟩ := exec_cases ht
  · obtain ⟨hkey, hfits, htrng⟩ := (encryptBody_none_iff s).1 hbody
    exact absurd ⟨hi, by simpa [keyLengthOk] using hkey, by simpa [encryptFits] using hfits, htrng⟩ h
  · exact ⟨code, out, ht⟩

end Sys2Proof.Machine

namespace Sys2Proof.Proofs

open Machine

/-- Settles O51, by induction on the number of host turns. -/
theorem hostReadsNoSecret : Obligations.HostReadsNoSecret := by
  unfold Obligations.HostReadsNoSecret
  intro k
  induction k with
  | zero => exact fun _ _ h => h
  | succ k ih =>
    intro s t h
    rw [hostTurns_succ, hostTurns_succ]
    exact ih _ _ (sameToHost_hostTurn h)

/-- Settles O54, by the reset turns and the accesses while reset is held. -/
theorem resetSetsEveryComponent : Obligations.ResetSetsEveryComponent := by
  unfold Obligations.ResetSetsEveryComponent
  intro s rest
  refine ⟨fun h => step_of_sched h, fun h => step_of_sched h, rfl, fun hr => ⟨?_, ?_⟩⟩
  · exact fun off v h4 hlt => ⟨readAt_held hr h4 hlt, writeAt_held v hr h4 hlt⟩
  · intro h
    rw [step_of_sched h]
    exact runTurn_engine_held hr

/-- Settles O55: a completion sets DONE, and the writes of STATUS and CTRL clear DONE and IE. -/
theorem interruptLineIsDoneAndEnable : Obligations.InterruptLineIsDoneAndEnable := by
  unfold Obligations.InterruptLineIsDoneAndEnable
  intro s v
  refine ⟨rfl, fun code out => by simp [irq], fun hr hv => ?_, fun hr hv => ?_⟩
  · rw [writeAt_status v hr]
    simp only [irq, acknowledge_done, hv, Bool.not_true, Bool.and_false, Bool.false_and]
  · rw [writeAt_ctrl v hr, hv]
    exact ⟨Bool.and_false _, rfl⟩

/-- Settles O7, by what `finish` leaves. -/
theorem completedCommandLeavesOnlyItsResult : Obligations.CompletedCommandLeavesOnlyItsResult := by
  unfold Obligations.CompletedCommandLeavesOnlyItsResult
  intro i s h
  obtain ⟨code, out, he⟩ := exec_completes h
  exact ⟨_, he, rfl, rfl, rfl, rfl, rfl, rfl, rfl, rfl, finish_accErr code out s, rfl⟩

end Sys2Proof.Proofs

/-! SUPPORT. What a legal read returns at each place of the register map (20_memory.md R63). -/

namespace Sys2Proof.Machine

theorem flagWord_eq_ite (b : Bool) : flagWord b = if b then 1 else 0 := by
  cases b <;> rfl

/-- A flag at bit n of a word is 2 ^ n or 0. -/
theorem flagWord_shiftLeft (b : Bool) (n : Nat) : flagWord b <<< n = if b then (1 : Word) <<< n else 0 := by
  rw [flagWord_eq_ite]
  split
  · rfl
  · exact BitVec.zero_shiftLeft n

/-- STATUS, with its flags as numbers (10_state.md R29). -/
theorem statusWord_eq (s : State) :
    statusWord s = s.err.setWidth 32 <<< 8 ||| (if s.accErr then 4 else 0) ||| (if s.done then 2 else 0)
      ||| (if s.fsm = .busy then 1 else 0) := by
  have hbusy : flagWord (isBusy s) = if s.fsm = .busy then 1 else 0 := by simp [flagWord_eq_ite, isBusy]
  rw [statusWord, flagWord_shiftLeft, flagWord_shiftLeft, hbusy]
  rfl

/-- The OUT window shows the first BUF_SIZE bytes of OUT_BUF, and zeros behind them (10_state.md R40). -/
theorem hostRead_outWindow (s : State) {off : Nat} (h : 0x20000 ≤ off) (hlt : off < 0x30000) :
    hostRead s off = if off - 0x20000 < s.cfg.bufSize then Memory.readWord s.outBuf (off - 0x20000) else 0 := by
  have noRegister : ∀ r < 0x020, ¬off = r := fun r hr => by omega
  rw [hostRead, if_neg (noRegister _ (by decide)), if_neg (noRegister _ (by decide)),
    if_neg (noRegister _ (by decide)), if_neg (noRegister _ (by decide)), if_neg (noRegister _ (by decide)),
    if_neg (noRegister _ (by decide)), if_neg (noRegister _ (by decide)), if_pos ⟨h, hlt⟩]

/-- Every word of an empty buffer is 0 (10_state.md R47). -/
@[simp] theorem memory_readWord_nil (o : Nat) : Memory.readWord [] o = 0 := by
  simp [Memory.readWord, wordOfBytes]

/-- With OUT_LEN = 0 and OUT_BUF empty nothing of a result is read (20_memory.md R70). -/
theorem hostRead_out_of_empty {s : State} {off : Nat} (hlen : s.outLen = 0) (hbuf : s.outBuf = [])
    (hlt : off < 0x30000) (h : off = 0x01C ∨ 0x20000 ≤ off) : hostRead s off = 0 := by
  obtain rfl | hwin := h
  · exact hlen
  · rw [hostRead_outWindow s hwin hlt, hbuf, memory_readWord_nil, ite_self]

/-- Reset aborts a command, so none is in flight while it is held (70_reset_and_hazards.md R205, R206). -/
theorem inReset_eq_false_of_busy {s : State} (h : HeldAtReset s) (hf : s.fsm = .busy) : s.inReset = false := by
  rw [Bool.eq_false_iff]
  intro hr
  have hidle : s.fsm = .idle := by rw [← h hr, resetBlock_fsm]
  exact nomatch hf.symm.trans hidle

/-! SUPPORT. Accesses that do not reach the register map (20_memory.md R60, R62). -/

theorem busAccess_outside {s : State} {a : Access} (h : reaches s a = false) :
    busAccess a s = { s with resp := .notReached } := by
  simp [busAccess, h]

theorem busAccess_illegal {s : State} {a : Access} (hr : reaches s a = true) (hl : legalAccess s a = false) :
    busAccess a s = { s with resp := .busError } := by
  simp [busAccess, hr, hl]

/-! SUPPORT. While a command is in flight no agent touches its operands, OUT or cmd_latch (20_memory.md R73). -/

/-- Key, input, output and cmd_latch are the same. -/
abbrev OperandsKept (s t : State) : Prop :=
  t.keyBuf = s.keyBuf ∧ t.keyLen = s.keyLen ∧ t.inBuf = s.inBuf ∧ t.inLen = s.inLen
    ∧ t.cmdLatch = s.cmdLatch ∧ t.outBuf = s.outBuf ∧ t.outLen = s.outLen

theorem operandsKept_refl (s : State) : OperandsKept s s := ⟨rfl, rfl, rfl, rfl, rfl, rfl, rfl⟩

/-- The writes that reach an operand, OUT or cmd_latch are those to guarded places, ignored while BUSY. -/
theorem operandsKept_hostWrite {s : State} (hf : s.fsm = .busy) (off : Nat) (v : Word) :
    OperandsKept s (hostWrite s off v) := by
  obtain ⟨-, h⟩ | h | h | ⟨hidle, -⟩ | h := hostWrite_cases s off v
  case inr.inr.inr.inl => exact nomatch hf.symm.trans hidle
  all_goals rw [h]; exact operandsKept_refl s

theorem operandsKept_busAccess {s : State} (hf : s.fsm = .busy) (a : Access) : OperandsKept s (busAccess a s) := by
  obtain ⟨r, h⟩ | ⟨-, -, -, v, -, h⟩ := busAccess_cases a s
  · rw [h]; exact operandsKept_refl s
  · rw [h]; exact operandsKept_hostWrite hf _ v

theorem operandsKept_hostTurn {s : State} (hf : s.fsm = .busy) : OperandsKept s (hostTurn s) := by
  obtain ⟨p, h⟩ | ⟨a, p, h⟩ := hostTurn_cases s
  · rw [h]; exact operandsKept_refl s
  · rw [h]; exact operandsKept_busAccess hf a

theorem operandsKept_sourceAnswer (a : TrngAnswer) (s : State) : OperandsKept s (sourceAnswer a s) := by
  obtain ⟨-, h⟩ | ⟨-, h⟩ := sourceAnswer_cases a s
  · rw [h]; exact operandsKept_refl s
  · rw [h]; exact operandsKept_refl s

theorem operandsKept_scratchWork (a : Nat) (v : Byte) (s : State) : OperandsKept s (scratchWork a v s) := by
  unfold scratchWork
  split
  · exact operandsKept_refl s
  · exact operandsKept_refl s

/-- A completion and a reset leave the block IDLE; every other turn keeps the operands of a command in flight. -/
theorem operandsKept_step {s t : State} (h : step s = .next t) (hs : s.fsm = .busy) (ht : t.fsm = .busy) :
    OperandsKept s t := by
  obtain ⟨-, -, he⟩ | ⟨-, -, rfl⟩ | ⟨-, rfl⟩ | ⟨a, -, rfl⟩ | ⟨a, v, -, rfl⟩ | ⟨-, rfl⟩ | ⟨-, rfl⟩ | ⟨-, rfl⟩ :=
    step_cases h
  · obtain ⟨-, -, rfl⟩ | ⟨code, out, rfl⟩ := exec_cases he
    · exact operandsKept_refl s
    · exact nomatch ht
  · exact operandsKept_refl s
  · exact operandsKept_hostTurn (s := beginStep s) hs
  · exact operandsKept_sourceAnswer a (beginStep s)
  · exact operandsKept_scratchWork a v (beginStep s)
  · exact nomatch ht
  · exact nomatch ht
  · exact operandsKept_refl s

end Sys2Proof.Machine

namespace Sys2Proof.Proofs

open Machine

/-- Settles O33, by what a read returns at each place of the map. -/
theorem hostReadReturnsTheMap : Obligations.HostReadReturnsTheMap := by
  unfold Obligations.HostReadReturnsTheMap
  intro s off hr h4 hlt
  rw [readAt_eq hr h4 hlt]
  refine ⟨⟨_, rfl⟩, ?id, ?caps, ?ctrl, ?status, ?keyLen, ?inLen, ?outLen, ?out, ?beyondOut, ?zero⟩
  case ctrl => rintro rfl; exact congrArg _ (flagWord_eq_ite s.ie)
  case status => rintro rfl; exact congrArg _ (statusWord_eq s)
  case out => intro h hb; rw [hostRead_outWindow s h hlt, if_pos hb]; rfl
  case beyondOut => intro h hb; rw [hostRead_outWindow s h hlt, if_neg (Nat.not_lt.2 hb)]
  case zero => intro h; rw [hostRead_zero s h]
  all_goals rintro rfl; rfl

/-- Settles O43: the invariant empties OUT while BUSY, and BUSY excludes a held reset. -/
theorem outReadsZeroWhileBusy : Obligations.OutReadsZeroWhileBusy := by
  unfold Obligations.OutReadsZeroWhileBusy
  intro s off ⟨_, _, _, _, hbusy, _, _, _, hheld⟩ hf h4 hlt h
  obtain ⟨-, -, hlen, hbuf⟩ := hbusy hf
  rw [readAt_eq (inReset_eq_false_of_busy hheld hf) h4 hlt, hostRead_out_of_empty hlen hbuf hlt h]

/-- Settles O49, by the frame of each agent's turn while BUSY. -/
theorem operandsAreFrozenWhileBusy : Obligations.OperandsAreFrozenWhileBusy := by
  unfold Obligations.OperandsAreFrozenWhileBusy
  exact fun _ _ => operandsKept_step

/-- Settles O41: the access reaches the block, and its width or its alignment makes it illegal. -/
theorem illegalAccessIsABusError : Obligations.IllegalAccessIsABusError := by
  unfold Obligations.IllegalAccessIsABusError
  intro s a hbase hend hbad
  have hreaches : reaches s a = true := (reaches_iff s a).2 ⟨hbase, by omega⟩
  have hillegal : legalAccess s a = false := by
    rwa [Bool.eq_false_iff, ne_eq, legalAccess_iff, not_and_or]
  rw [busAccess_illegal hreaches hillegal]
  exact ⟨rfl, rfl⟩

/-- Settles O42: no address outside the aperture reaches the block. -/
theorem accessOutsideTheApertureDoesNotReach : Obligations.AccessOutsideTheApertureDoesNotReach := by
  unfold Obligations.AccessOutsideTheApertureDoesNotReach
  intro s a hout
  apply busAccess_outside
  rw [Bool.eq_false_iff, ne_eq, reaches_iff]
  omega

end Sys2Proof.Proofs

/-! SUPPORT. The command words: decoder and encoder are inverse, and the fields tell the illegal words
(30_encoding.md R80 to R84). -/

namespace Sys2Proof

theorem decode_of_ne {w : Word} (h1 : w ≠ 0x00000001) (h2 : w ≠ 0x00000002) (h3 : w ≠ 0x00000003) :
    decode w = .illegal w := by
  rw [decode, if_neg h1, if_neg h2, if_neg h3]

theorem decode_eq_illegal_iff (w : Word) :
    decode w = .illegal w ↔ w ≠ 0x00000001 ∧ w ≠ 0x00000002 ∧ w ≠ 0x00000003 := by
  refine ⟨fun h => ⟨?_, ?_, ?_⟩, fun ⟨h1, h2, h3⟩ => decode_of_ne h1 h2 h3⟩
  all_goals rintro rfl; exact nomatch h

theorem wellFormed_illegal_iff (w : Word) :
    (Instr.illegal w).wellFormed = true ↔ w ≠ 0x00000001 ∧ w ≠ 0x00000002 ∧ w ≠ 0x00000003 := by
  simp [Instr.wellFormed, and_assoc]

/-- An ill-formed ILLEGAL is the only term that does not come back: its word is another command's (R81). -/
theorem decode_encode {i : Instr} (h : i.wellFormed = true) : decode (encode i) = i := by
  cases i with
  | encrypt => rfl
  | decrypt => rfl
  | wipe => rfl
  | illegal w => exact (decode_eq_illegal_iff w).2 ((wellFormed_illegal_iff w).1 h)

/-- The decoder's four branches: a legal word with its command, or any other word (R81). -/
theorem decode_cases (w : Word) :
    (w = 0x00000001 ∧ decode w = .encrypt) ∨ (w = 0x00000002 ∧ decode w = .decrypt)
      ∨ (w = 0x00000003 ∧ decode w = .wipe)
      ∨ ((w ≠ 0x00000001 ∧ w ≠ 0x00000002 ∧ w ≠ 0x00000003) ∧ decode w = .illegal w) := by
  by_cases h1 : w = 0x00000001
  · exact .inl ⟨h1, by rw [h1]; rfl⟩
  by_cases h2 : w = 0x00000002
  · exact .inr (.inl ⟨h2, by rw [h2]; rfl⟩)
  by_cases h3 : w = 0x00000003
  · exact .inr (.inr (.inl ⟨h3, by rw [h3]; rfl⟩))
  · exact .inr (.inr (.inr ⟨⟨h1, h2, h3⟩, decode_of_ne h1 h2 h3⟩))

/-- No word is lost in decoding (R84). -/
theorem encode_decode (w : Word) : encode (decode w) = w := by
  obtain ⟨rfl, -⟩ | ⟨rfl, -⟩ | ⟨rfl, -⟩ | ⟨-, h⟩ := decode_cases w
  · rfl
  · rfl
  · rfl
  · rw [h, encode]

theorem decode_wellFormed (w : Word) : (decode w).wellFormed = true := by
  obtain ⟨-, h⟩ | ⟨-, h⟩ | ⟨-, h⟩ | ⟨hne, h⟩ := decode_cases w
  · rw [h]; rfl
  · rw [h]; rfl
  · rw [h]; rfl
  · rw [h]; exact (wellFormed_illegal_iff w).2 hne

/-- A word is RSVD times 16 and OP, and the legal ones are the numbers 1, 2 and 3 (R80, R82). -/
theorem decode_eq_illegal_iff_fields (w : Word) :
    decode w = .illegal w ↔ opField w = 0 ∨ 4 ≤ (opField w).toNat ∨ rsvdField w ≠ 0 := by
  have hw := Laws.CommandWord.word_of_fields w
  rw [decode_eq_illegal_iff]
  bv_omega

/-- The host's decoder is `decode` on the word it places (log 11). -/
theorem decode_tableWord {nbits w : Nat} {i : Instr} (h : decodeTableWord nbits w = some i) :
    decode (Machine.tableWord nbits w) = i := by
  unfold decodeTableWord at h
  split at h
  · exact Option.some.inj h
  · cases h

end Sys2Proof

/-! SUPPORT. The engine's turn, and the completion of an illegal word (30_encoding.md R82, R83). -/

namespace Sys2Proof.Machine

/-- The engine's turn completes the command that cmd_latch holds at that turn (R83). -/
theorem runTurn_engine {s : State} (hf : s.fsm = .busy) (hr : s.inReset = false) :
    runTurn .engine s = exec (decode s.cmdLatch) s :=
  if_pos ((engineRuns_iff s).2 ⟨hf, hr⟩)

/-- With the schedule over the engine moves as soon as its completion is enabled (log 4). -/
theorem step_of_completionEnabled {s : State} (hs : s.sched = []) (hc : completionEnabled s = true) :
    step s = runTurn .engine { s with resp := .none } := by
  have hturn : nextTurn s = .engine := by rw [nextTurn, hs]; exact if_pos hc
  have hbegin : beginStep s = { s with resp := .none } := by rw [beginStep, hs, List.tail_nil, ← hs]
  rw [step, hturn, hbegin]

theorem writeAt_cmd {s : State} (v : Word) (hf : s.fsm = .idle) (hr : s.inReset = false) :
    writeAt 0x010 v s = { accept v s with resp := .written } := by
  rw [writeAt_eq v hr (by decide) (by decide), hostWrite_cmd v hf]

/-- An illegal word has no output, so its completion publishes nothing (43_commands.md R171). -/
theorem exec_illegal (w : Word) (s : State) :
    exec (.illegal w) s
      = .next { s with
          keyBuf := [], keyLen := 0, inBuf := [], inLen := 0, scratch := [], trng := none, cmdLatch := 0,
          err := 6, done := true, fsm := .idle } := rfl

end Sys2Proof.Machine

namespace Sys2Proof.Proofs

open Machine

/-- Settles O3: the decoder and the encoder are inverse, branch by branch. -/
theorem decodeAndEncodeAgree : Obligations.DecodeAndEncodeAgree := by
  unfold Obligations.DecodeAndEncodeAgree
  exact ⟨fun _ => decode_encode, fun w => ⟨encode_decode w, decode_wellFormed w⟩⟩

/-- Settles O4, by the fields of the word, its acceptance, and the completion with code 6. -/
theorem illegalWordsAreAcceptedAndCompleteWithSix : Obligations.IllegalWordsAreAcceptedAndCompleteWithSix := by
  unfold Obligations.IllegalWordsAreAcceptedAndCompleteWithSix
  intro w s
  refine ⟨decode_eq_illegal_iff_fields w, fun hf hr hw => ?_⟩
  rw [writeAt_cmd w hf hr, hw, exec_illegal]
  exact ⟨rfl, rfl⟩

/-- Settles O1: three comparisons, and the branch that is left. -/
theorem commandWordsDecodeAsListed : Obligations.CommandWordsDecodeAsListed := by
  unfold Obligations.CommandWordsDecodeAsListed
  exact ⟨rfl, rfl, rfl, fun _ => decode_of_ne⟩

/-- Settles O2: three of the five words are the legal ones of R81, and the fields of the other two say why not. -/
theorem wordsWrittenByFieldDecode : Obligations.WordsWrittenByFieldDecode := by
  unfold Obligations.WordsWrittenByFieldDecode
  exact ⟨rfl, rfl, rfl, (decode_eq_illegal_iff_fields 0x00000011).2 (by decide),
    (decode_eq_illegal_iff_fields 0x0000000F).2 (by decide)⟩

/-- Settles O45, by the engine's turn, from the schedule or when it is over. -/
theorem stepRunsTheDecodedCommand : Obligations.StepRunsTheDecodedCommand := by
  unfold Obligations.StepRunsTheDecodedCommand
  rintro s _ hf hr rfl
  refine ⟨fun rest h => ?_, fun hs hc => ?_⟩
  · rw [step_of_sched h]; exact runTurn_engine hf hr
  · rw [step_of_completionEnabled hs hc]; exact runTurn_engine hf hr

/-- Settles O46: the placed command is in flight and the engine's turn is next. -/
theorem placedCommandRunsNext : Obligations.PlacedCommandRunsNext := by
  unfold Obligations.PlacedCommandRunsNext
  intro s nbits w i hi
  rw [← decode_tableWord hi, step_of_sched (s := s.withFetchWord nbits w) rfl]
  exact runTurn_engine rfl rfl

end Sys2Proof.Proofs

/-! SUPPORT. Words of a byte sequence in a buffer: LOADKEY and LOADIN write them, READOUT reads them
(30_encoding.md R94 to R96). -/

namespace Sys2Proof.Machine

/-- A word of a byte sequence has the sequence's own bytes (R94, R95). -/
theorem wordBytes_le32At (d : Bytes) (i : Nat) {b : Nat} (hb : b < 4) :
    (wordBytes (le32At d i)).getD b 0 = d.getD (4 * i + b) 0 := by
  rw [le32At, wordBytes_wordOfBytes]
  match b, hb with
  | 0, _ => rfl
  | 1, _ => rfl
  | 2, _ => rfl
  | 3, _ => rfl

/-- The buffer after the first `n` words of `d` have been written to it, from its first byte on. -/
def Memory.loadWords (m : Memory) (d : Bytes) : Nat → Memory
  | 0 => m
  | n + 1 => Memory.writeWord (Memory.loadWords m d n) (4 * n) (le32At d n)

theorem memory_read_loadWords (m : Memory) (d : Bytes) (n a : Nat) :
    Memory.read (Memory.loadWords m d n) a = if a < 4 * n then d.getD a 0 else Memory.read m a := by
  induction n with
  | zero => rfl
  | succ n ih =>
    rw [Memory.loadWords, Memory.writeWord, memory_read_writeBytes, wordBytes_length]
    split
    next h =>
      rw [wordBytes_le32At d n (by omega), Nat.add_sub_cancel' h.1, if_pos (by omega)]
    next h =>
      rw [ih]
      by_cases ha : a < 4 * n
      · rw [if_pos ha, if_pos (by omega)]
      · rw [if_neg ha, if_neg (by omega)]

/-- Words enough for `d` put `d` at the start of the buffer. -/
theorem memory_slice_loadWords (m : Memory) (d : Bytes) {n : Nat} (hn : d.length ≤ 4 * n) :
    Memory.slice (Memory.loadWords m d n) 0 d.length = d := by
  apply List.ext_getElem?
  intro i
  rw [memory_slice_getElem?]
  split
  next hi => rw [memory_read_loadWords, if_pos (by omega)]; simp [hi]
  next hi => exact (List.getElem?_eq_none (Nat.le_of_not_lt hi)).symm

theorem memory_slice_add (m : Memory) (a j k : Nat) :
    Memory.slice m a (j + k) = Memory.slice m a j ++ Memory.slice m (a + j) k := by
  induction j generalizing a with
  | zero => rw [Nat.zero_add]; rfl
  | succ j ih =>
    rw [Nat.add_right_comm, Memory.slice, ih, Memory.slice, List.cons_append, Nat.add_right_comm, Nat.add_assoc]

/-- A shorter slice is the start of a longer one. -/
theorem memory_slice_take (m : Memory) (a : Nat) {n k : Nat} (h : n ≤ k) :
    (Memory.slice m a k).take n = Memory.slice m a n := by
  obtain ⟨j, rfl⟩ := Nat.exists_eq_add_of_le h
  rw [memory_slice_add, List.take_left' (memory_slice_length m a n)]

/-- The bytes of the first `w` words of a buffer are its first `4 * w` bytes. -/
theorem flatMap_wordBytes_readWord (m : Memory) (w : Nat) :
    ((List.range w).map fun i => Memory.readWord m (4 * i)).flatMap wordBytes = Memory.slice m 0 (4 * w) := by
  induction w with
  | zero => rfl
  | succ w ih =>
    rw [List.range_succ, List.map_append, List.flatMap_append, ih, Nat.mul_succ, memory_slice_add, Nat.zero_add,
      List.map_singleton, List.flatMap_singleton, wordBytes_readWord]
    rfl

end Sys2Proof.Machine

/-! SUPPORT. The turns of a host program: the item at its head, and a run of accesses to a window
(30_encoding.md R92). -/

namespace Sys2Proof.Machine

theorem hostTurn_of_prog {s : State} {op : HostOp} {rest : List HostOp} (h : s.prog = op :: rest) :
    hostTurn s = runHostOp op rest s := by
  rw [hostTurn, h]

/-- The state after `k + 1` host turns is the host's turn in that after `k`. -/
theorem hostTurns_succ' (k : Nat) (s : State) : hostTurns (k + 1) s = hostTurn (hostTurns k s) :=
  Function.iterate_succ_apply' hostTurn k s

/-- The turn of a `W` is its write (R92). -/
theorem runHostOp_write {s t : State} {off : Nat} {v : Word} (h : writeAt off v s = t) (p : List HostOp) :
    runHostOp (.write off v) p s = { t with prog := p } := by
  rw [runHostOp, h]

/-- The turn of an `R` is its read (R92). -/
theorem runHostOp_read {s t : State} {off : Nat} (h : readAt off s = t) (p : List HostOp) :
    runHostOp (.read off) p s = { t with prog := p } := by
  rw [runHostOp, h]

/-- Items `f 0`, `f 1` and so on, each of which takes `σ i` to `σ (i + 1)` whatever the program around it, run
one after the other. -/
theorem hostTurns_range {f : Nat → HostOp} {σ : Nat → State} {n : Nat} {rest : List HostOp} {s : State}
    (hturn : ∀ i < n, ∀ p q, runHostOp (f i) p { σ i with prog := q } = { σ (i + 1) with prog := p })
    (hs : s = { σ 0 with prog := (List.range n).map f ++ rest }) {i : Nat} (hi : i ≤ n) :
    hostTurns i s = { σ i with prog := ((List.range n).drop i).map f ++ rest } := by
  induction i with
  | zero => exact hs
  | succ i ih =>
    have hhead : (List.range n).drop i = i :: (List.range n).drop (i + 1) := by
      rw [List.drop_eq_getElem_cons (by simpa using hi), List.getElem_range]
    rw [hostTurns_succ', ih (Nat.le_of_succ_le hi), hhead]
    exact hturn i hi _ _

/-- After the last of them the program goes on with what stood behind. -/
theorem hostTurns_range_all {f : Nat → HostOp} {σ : Nat → State} {n : Nat} {rest : List HostOp} {s : State}
    (hturn : ∀ i < n, ∀ p q, runHostOp (f i) p { σ i with prog := q } = { σ (i + 1) with prog := p })
    (hs : s = { σ 0 with prog := (List.range n).map f ++ rest }) :
    hostTurns n s = { σ n with prog := rest } := by
  rw [hostTurns_range hturn hs le_rfl, List.drop_of_length_le (by simp)]
  rfl

/-- A state with its own program. -/
theorem State.eq_withProg (s : State) {p : List HostOp} (h : s.prog = p) : s = { s with prog := p } := by
  rw [← h]

/-- The response after `n` writes (20_memory.md R64). -/
def writesResp (s : State) : Nat → Response
  | 0 => s.resp
  | _ + 1 => .written

/-- The state after the first `i` words of LOADKEY (R94). -/
def keyLoading (k : Bytes) (s : State) (i : Nat) : State :=
  { s with keyBuf := Memory.loadWords s.keyBuf k i, resp := writesResp s i }

/-- The state after the first `i` words of LOADIN (R95). -/
def inLoading (d : Bytes) (s : State) (i : Nat) : State :=
  { s with inBuf := Memory.loadWords s.inBuf d i, resp := writesResp s i }

/-- Everything LOADKEY does while IDLE (R94). -/
theorem hostTurns_loadKey {s : State} {k : Bytes} {n : Word} {rest : List HostOp} (hf : s.fsm = .idle)
    (hr : s.inReset = false) (hp : s.prog = loadKey k n ++ rest) :
    hostTurns 9 s
      = { s with keyBuf := Memory.loadWords s.keyBuf k 8, keyLen := n, resp := .written, prog := rest } := by
  rw [loadKey, List.append_assoc] at hp
  have hwords : hostTurns 8 s = { keyLoading k s 8 with prog := .write Config.offKeyLen n :: rest } := by
    refine hostTurns_range_all (fun i hi p q => ?_) (s.eq_withProg hp)
    exact runHostOp_write
      (writeAt_keyWindow (s := { keyLoading k s i with prog := q }) _ hf hr (by omega) (by omega)) p
  rw [hostTurns_succ', hwords]
  exact runHostOp_write (writeAt_keyLen (s := { keyLoading k s 8 with prog := _ }) n hf hr) rest

/-- Everything LOADIN does while IDLE with an input that fits (R95). -/
theorem hostTurns_loadIn {s : State} {d : Bytes} {rest : List HostOp} (hc : s.cfg.Legal) (hf : s.fsm = .idle)
    (hr : s.inReset = false) (hd : d.length ≤ s.cfg.bufSize) (hp : s.prog = loadIn d ++ rest) :
    hostTurns ((d.length + 3) / 4 + 1) s
      = { s with
          inBuf := Memory.loadWords s.inBuf d ((d.length + 3) / 4), inLen := BitVec.ofNat 32 d.length,
          resp := .written, prog := rest } := by
  obtain ⟨-, -, hmax⟩ := hc
  rw [loadIn, List.append_assoc] at hp
  have hwords : hostTurns ((d.length + 3) / 4) s
      = { inLoading d s ((d.length + 3) / 4) with
          prog := .write Config.offInLen (BitVec.ofNat 32 d.length) :: rest } := by
    refine hostTurns_range_all (fun i hi p q => ?_) (s.eq_withProg hp)
    have hb : 4 * i < s.cfg.bufSize := by omega
    exact runHostOp_write
      (writeAt_inWindow (s := { inLoading d s i with prog := q }) _ hf hr (by omega) (by omega) hb) p
  rw [hostTurns_succ', hwords]
  exact runHostOp_write (writeAt_inLen (s := { inLoading d s _ with prog := _ }) _ hf hr) rest

/-- The words of OUT that READOUT reads hold the bytes of OUT_BUF (R96). -/
theorem readoutBytes_hostRead {s : State} {n : Nat} (hn : n ≤ s.cfg.bufSize) (hc : s.cfg.Legal) :
    readoutBytes n ((List.range ((n + 3) / 4)).map fun i => hostRead s (0x20000 + 4 * i))
      = Memory.slice s.outBuf 0 n := by
  obtain ⟨-, -, hmax⟩ := hc
  have hwords : (List.range ((n + 3) / 4)).map (fun i => hostRead s (0x20000 + 4 * i))
      = (List.range ((n + 3) / 4)).map fun i => Memory.readWord s.outBuf (4 * i) := by
    refine List.map_congr_left fun i hi => ?_
    have hlt := List.mem_range.1 hi
    rw [hostRead_outWindow s (by omega) (by omega), Nat.add_sub_cancel_left, if_pos (by omega)]
  rw [hwords, readoutBytes, flatMap_wordBytes_readWord, memory_slice_take _ _ (by omega)]

/-- READOUT's own turn: a read of OUT_LEN (R96). -/
theorem hostTurn_readout {s : State} {rest : List HostOp} (hr : s.inReset = false)
    (hp : s.prog = .readout :: rest) :
    hostTurn s = { s with resp := .data s.outLen, prog := outReads s.outLen.toNat ++ rest } := by
  rw [hostTurn_of_prog hp, runHostOp, readAt_eq hr (by decide) (by decide)]
  rfl

/-- The state of READOUT after its read of OUT_LEN and the first `i` OUT words (R96). -/
def readingOut (s : State) : Nat → State
  | 0 => { s with resp := .data s.outLen }
  | i + 1 => { s with resp := .data (hostRead s (0x20000 + 4 * i)) }

/-- No read looks at the response or the program. -/
theorem runHostOp_read_readingOut {s : State} {i : Nat} (hr : s.inReset = false) (hi : 4 * i < 0x10000)
    (p q : List HostOp) :
    runHostOp (.read (0x20000 + 4 * i)) p { readingOut s i with prog := q }
      = { readingOut s (i + 1) with prog := p } := by
  have h4 : (0x20000 + 4 * i) % 4 = 0 := by omega
  have hlt : 0x20000 + 4 * i < 0x30000 := by omega
  cases i with
  | zero => exact runHostOp_read (readAt_eq (s := { readingOut s 0 with prog := q }) hr h4 hlt) p
  | succ i => exact runHostOp_read (readAt_eq (s := { readingOut s (i + 1) with prog := q }) hr h4 hlt) p

/-- The state after READOUT's own turn and `i` of its reads (R96). -/
theorem hostTurns_readout {s : State} {rest : List HostOp} (hc : s.cfg.Legal) (hr : s.inReset = false)
    (hn : s.outLen.toNat ≤ s.cfg.bufSize) (hp : s.prog = .readout :: rest) {i : Nat}
    (hi : i ≤ (s.outLen.toNat + 3) / 4) :
    hostTurns (i + 1) s
      = { readingOut s i with
          prog := ((List.range ((s.outLen.toNat + 3) / 4)).drop i).map (fun j => .read (0x20000 + 4 * j)) ++ rest } := by
  obtain ⟨-, -, hmax⟩ := hc
  rw [hostTurns_succ]
  refine hostTurns_range (n := (s.outLen.toNat + 3) / 4) (fun j hj => ?_) (hostTurn_readout hr hp) hi
  exact runHostOp_read_readingOut hr (by omega)

/-- A read of STATUS, and READOUT only after success (70_reset_and_hazards.md R210; log 19). -/
theorem hostTurn_takeResult {s : State} {rest : List HostOp} (hr : s.inReset = false)
    (hp : s.prog = .takeResult :: rest) :
    hostTurn s
      = { s with resp := .data (statusWord s), prog := if s.err = 0 then .readout :: rest else rest } := by
  obtain ⟨-, -, -, herr, -, -⟩ := statusWord_fields s
  rw [hostTurn_of_prog hp, runHostOp, readAt_eq hr (by decide) (by decide), ← herr]
  rfl

theorem hostTurn_waitIrq {s : State} {rest : List HostOp} (hp : s.prog = .waitIrq :: rest) :
    hostTurn s = if irq s then { s with prog := rest } else s :=
  hostTurn_of_prog hp

theorem hostTurn_poll {s : State} {off : Nat} {mask val : Word} {rest : List HostOp} (hr : s.inReset = false)
    (h4 : off % 4 = 0) (hlt : off < 0x30000) (hp : s.prog = .poll off mask val :: rest) :
    hostTurn s
      = { s with
          resp := .data (hostRead s off), prog := if hostRead s off &&& mask = val then rest else s.prog } := by
  rw [hostTurn_of_prog hp, runHostOp, readAt_eq hr h4 hlt]
  by_cases h : hostRead s off &&& mask = val
  · rw [if_pos h]; exact if_pos h
  · rw [if_neg h]; exact if_neg h

end Sys2Proof.Machine

namespace Sys2Proof.Proofs

open Machine

/-- Settles O57, by the words of the key in KEY_BUF and the write of KEY_LEN. -/
theorem loadKeyLoadsTheKey : Obligations.LoadKeyLoadsTheKey := by
  unfold Obligations.LoadKeyLoadsTheKey
  intro s k n rest hf hr hk hp
  have hkey : Memory.slice (Memory.loadWords s.keyBuf k 8) 0 32 = k := by
    rw [← hk]; exact memory_slice_loadWords s.keyBuf k (by omega)
  rw [hostTurns_loadKey hf hr hp]
  exact ⟨hkey, rfl, rfl, rfl, rfl, hf⟩

/-- Settles O58, by the words of the input in IN_BUF and the write of IN_LEN. -/
theorem loadInLoadsTheInput : Obligations.LoadInLoadsTheInput := by
  unfold Obligations.LoadInLoadsTheInput
  intro s d rest hc hf hr hd hp
  have hmax : s.cfg.bufSize ≤ 65536 := hc.2.2
  have hlen : (BitVec.ofNat 32 d.length).toNat = d.length :=
    (BitVec.toNat_ofNat _ _).trans (Nat.mod_eq_of_lt (by omega))
  rw [hostTurns_loadIn hc hf hr hd hp]
  refine ⟨?_, hlen, rfl, rfl, rfl⟩
  rw [inputOperand, hlen]
  exact memory_slice_loadWords s.inBuf d (by omega)

/-- Settles O59, by the turns of READOUT, of the conditional readout and of the wait for irq. -/
theorem readoutGivesTheResult : Obligations.ReadoutGivesTheResult := by
  unfold Obligations.ReadoutGivesTheResult
  refine ⟨fun s n hn hc => readoutBytes_hostRead hn hc, ?_, fun s rest hr hp => hostTurn_takeResult hr hp, ?_⟩
  · rintro s n rest hc hr rfl hn hp
    have hword : ∀ i < (s.outLen.toNat + 3) / 4,
        (hostTurns (i + 2) s).resp = .data (hostRead s (0x20000 + 4 * i)) := fun i hi => by
      rw [hostTurns_readout hc hr hn hp (i := i + 1) hi]; rfl
    refine ⟨hostTurn_readout hr hp, hword, ?_, ?_⟩
    · rw [← readoutBytes_hostRead hn hc]
      refine congrArg _ (List.map_congr_left fun i hi => ?_)
      rw [hword i (List.mem_range.1 hi)]; rfl
    · rw [hostTurns_readout hc hr hn hp le_rfl, List.drop_of_length_le (by simp)]
      cases (s.outLen.toNat + 3) / 4 <;> rfl
  · intro s rest hp
    rw [hostTurn_waitIrq hp, ← Bool.and_eq_true, ← irq]
    exact ⟨fun h => if_pos h, fun h => if_neg h⟩

/-- Settles O60, by the turn of a POLL and the program it leaves. -/
theorem pollRepeatsUntilItsTestHolds : Obligations.PollRepeatsUntilItsTestHolds := by
  unfold Obligations.PollRepeatsUntilItsTestHolds
  intro s off mask val rest hr h4 hlt hp
  rw [hostTurn_poll hr h4 hlt hp]
  exact ⟨fun h => by rw [if_pos h], fun h => by rw [if_neg h]⟩

end Sys2Proof.Proofs

/-! SUPPORT. GF(2^8), the S-box and its affine map (40_aes_gcm.md R100 to R102). -/

namespace Sys2Proof.Machine

/-- The S-box by its table is the S-box by its formula, on each of the 256 bytes. -/
theorem sbox_eq_sboxFormula : ∀ a : Byte, sbox a = sboxFormula a := by decide +kernel

/-- The power `a^254` is the inverse of `a`, for each of the 255 bytes that have one. -/
theorem gmul_gf8Inverse : ∀ a : Byte, a ≠ 0 → gmul a (gf8Inverse a) = 1 := by decide +kernel

theorem gf8Inverse_zero : gf8Inverse 0 = 0 := by decide +kernel

/-- A rotation to the right by `k` reads each bit `k` places up, indices modulo 8. -/
theorem byte_rotateRight_getLsbD (b : Byte) {k i : Nat} (hk : k < 8) (hi : i < 8) :
    (b.rotateRight k).getLsbD i = b.getLsbD ((i + k) % 8) := by
  rw [BitVec.getLsbD_rotateRight, Nat.mod_eq_of_lt hk]
  by_cases hik : i < 8 - k
  · have hidx : (i + k) % 8 = k + i := by omega
    simp [hik, hidx]
  · have hidx : (i + k) % 8 = i - (8 - k) := by omega
    simp [hik, hi, hidx]

/-- The affine map bit by bit, as R101 writes it. -/
theorem affine_getLsbD (b : Byte) {i : Nat} (hi : i < 8) :
    (affine b).getLsbD i
      = (b.getLsbD i ^^ b.getLsbD ((i + 4) % 8) ^^ b.getLsbD ((i + 5) % 8) ^^ b.getLsbD ((i + 6) % 8)
          ^^ b.getLsbD ((i + 7) % 8) ^^ (0x63 : Byte).getLsbD i) := by
  simp only [affine, BitVec.getLsbD_xor, byte_rotateRight_getLsbD b _ hi, Nat.reduceLT, Bool.xor_assoc]

end Sys2Proof.Machine

/-! SUPPORT. The product of GF(2^128), the counter, the keystream of GCTR and the tag of an empty ciphertext
(40_aes_gcm.md R110 to R118). -/

namespace Sys2Proof.Machine

/-- Turns on bits of X that are 0 leave Z unchanged (R111). -/
theorem gf128Loop_of_no_bits {x : Bits128} {n : Nat} (z v : Bits128) (hx : ∀ i < n, x.getLsbD i = false) :
    gf128Loop x n z v = z := by
  induction n generalizing z v with
  | zero => rfl
  | succ n ih => simpa [gf128Loop, hx n (Nat.lt_succ_self n)] using ih _ _ fun i hi => hx i (by omega)

/-- With V = 0 there is nothing to add, and V stays 0 (R111). -/
theorem gf128Loop_zero (x : Bits128) (n : Nat) (z : Bits128) : gf128Loop x n z 0 = z := by
  induction n with
  | zero => rfl
  | succ n ih => simpa [gf128Loop] using ih

/-- A turn on a V with one bit, at the place of the bit of X that it reads, adds that bit of X to Z. -/
theorem ite_xor_twoPow_getLsbD (x z : Bits128) {n : Nat} (hn : n < 128) (i : Nat) :
    (if x.getLsbD n then z ^^^ BitVec.twoPow 128 n else z).getLsbD i
      = (z.getLsbD i ^^ (decide (i = n) && x.getLsbD i)) := by
  by_cases hi : i = n
  · subst hi; cases hx : x.getLsbD i <;> simp [hn]
  · cases x.getLsbD n <;> simp [hi, Ne.symm hi]

theorem twoPow_succ_ushiftRight_one {n : Nat} (hn : n + 1 < 128) :
    BitVec.twoPow 128 (n + 1) >>> 1 = BitVec.twoPow 128 n := by
  apply BitVec.eq_of_getLsbD_eq
  intro i hi
  have hn' : n < 128 := by omega
  simp [hn, hn', Nat.add_comm 1]

/-- V with one bit moves down with the place of the bit of X: the turns add the bits of X to Z one by one, and V
meets the reduction only after the last of them (R111). -/
theorem gf128Loop_twoPow (x : Bits128) {n : Nat} (hn : n < 128) (z : Bits128) (i : Nat) :
    (gf128Loop x (n + 1) z (BitVec.twoPow 128 n)).getLsbD i
      = (z.getLsbD i ^^ (decide (i < n + 1) && x.getLsbD i)) := by
  induction n generalizing z with
  | zero =>
    rw [gf128Loop, gf128Loop, ite_xor_twoPow_getLsbD x z hn]
    simp
  | succ n ih =>
    have hlow : (BitVec.twoPow 128 (n + 1)).getLsbD 0 = false := by simp
    rw [gf128Loop, hlow, if_neg Bool.false_ne_true, twoPow_succ_ushiftRight_one hn, ih (by omega),
      ite_xor_twoPow_getLsbD x z hn]
    by_cases hi : i = n + 1
    · simp [hi]
    · have hlt : i < n + 1 + 1 ↔ i < n + 1 := by omega
      simp [hi, hlt]

/-- `0x80 || zeros(15)`, the 1 of the field, has the bit of weight 127 alone. -/
theorem gf128One_eq_twoPow : (0x80000000000000000000000000000000 : Bits128) = BitVec.twoPow 128 127 := by decide

theorem zero_gf128Mul (y : Bits128) : gf128Mul 0 y = 0 := gf128Loop_of_no_bits 0 y (by simp)

theorem gf128Mul_zero (y : Bits128) : gf128Mul y 0 = 0 := gf128Loop_zero y 128 0

/-- The first turn adds Y, and no other turn adds anything. -/
theorem one_gf128Mul (y : Bits128) : gf128Mul 0x80000000000000000000000000000000 y = y := by
  have hlow : ∀ i < 127, (BitVec.twoPow 128 127).getLsbD i = false := fun i hi => by simp [Nat.ne_of_gt hi]
  rw [gf128One_eq_twoPow, gf128Mul, gf128Loop, gf128Loop_of_no_bits _ _ hlow]
  simp

/-- Every turn adds its own bit of Y. -/
theorem gf128Mul_one (y : Bits128) : gf128Mul y 0x80000000000000000000000000000000 = y := by
  apply BitVec.eq_of_getLsbD_eq
  intro i hi
  rw [gf128One_eq_twoPow, gf128Mul, gf128Loop_twoPow y (by decide)]
  simp [hi]

/-- A 32-bit string is that of its own four bytes (00_scope.md R12). -/
@[simp] theorem colBits_colOfBits (v : BitVec 32) : colBits (colOfBits v) = v := by
  have h16 : v.extractLsb' 24 8 ++ v.extractLsb' 16 8 = v.extractLsb' 16 16 :=
    BitVec.extractLsb'_append_extractLsb'_eq_extractLsb' rfl
  have h8 : v.extractLsb' 16 16 ++ v.extractLsb' 8 8 = v.extractLsb' 8 24 :=
    BitVec.extractLsb'_append_extractLsb'_eq_extractLsb' rfl
  have h0 : v.extractLsb' 8 24 ++ v.extractLsb' 0 8 = v.extractLsb' 0 32 :=
    BitVec.extractLsb'_append_extractLsb'_eq_extractLsb' rfl
  rw [colBits, colOfBits, h16, h8, h0, BitVec.extractLsb'_eq_self]

/-- A sequence against two in a row is XORed with the first as far as that one reaches, then with the second. -/
theorem xorBytes_append (x b c : Bytes) :
    xorBytes x (b ++ c) = xorBytes (x.take b.length) b ++ xorBytes (x.drop b.length) c := by
  induction b generalizing x with
  | nil => simp [xorBytes]
  | cons d b ih =>
    cases x with
    | nil => simp [xorBytes]
    | cons a x => simpa [xorBytes] using ih x

/-- What GCTR XORs with its input over `n` blocks from the counter block `cb` (R115). -/
def keystream (k : Bytes) : Nat → Block → Bytes
  | 0, _ => []
  | n + 1, cb => blockBytes (aes256 k cb) ++ keystream k n (inc32 cb)

@[simp] theorem keystream_length (k : Bytes) (n : Nat) (cb : Block) : (keystream k n cb).length = 16 * n := by
  induction n generalizing cb with
  | zero => rfl
  | succ n ih => simp [keystream, ih]; omega

theorem gctrBlocks_eq_xorBytes (k : Bytes) (n : Nat) (cb : Block) (x : Bytes) :
    gctrBlocks k n cb x = xorBytes x (keystream k n cb) := by
  induction n generalizing cb x with
  | zero => simp [gctrBlocks, keystream, xorBytes]
  | succ n ih => simp [gctrBlocks, keystream, xorBytes_append, ih]

/-- The keystream reaches the end of the sequence and depends on its length alone, so the second GCTR takes away
what the first one added (R115). -/
@[simp] theorem gctr_gctr (k : Bytes) (icb : Block) (x : Bytes) : gctr k icb (gctr k icb x) = x := by
  rw [gctr, gctr_length, gctr, gctrBlocks_eq_xorBytes, gctrBlocks_eq_xorBytes]
  apply xorBytes_xorBytes
  rw [keystream_length]; omega

/-- The GHASH input of an empty ciphertext is one block of zeros (R118). -/
theorem tagInput_nil : tagInput [] = zeros 16 := by decide

/-- One block of zeros hashes to 0 under every subkey: it is the product `0 • H` (R113). -/
theorem ghash_zeros (h : Bits128) : ghash h (zeros 16) = 0 := zero_gf128Mul h

@[simp] theorem blockOfBits_zero_xor (b : Block) : Block.xor (blockOfBits 0) b = b := by
  simp [Block.xor, Col.xor, blockOfBits, colOfBits]

/-- The tag of an empty ciphertext is the encrypted pre-counter block (R118). -/
theorem gcmTag_nil (k iv : Bytes) : gcmTag k iv [] = blockBytes (aes256 k (preCounter iv)) := by
  rw [gcmTag, tagInput_nil, ghash_zeros, blockOfBits_zero_xor]

/-- GCM_AD fails on every tag but the tag (R120). -/
theorem gcmAD_eq_none_iff (k iv c t : Bytes) : gcmAD k iv c t = none ↔ t ≠ gcmTag k iv c := by
  simp [gcmAD, eq_comm]

/-- The tag is the one GCM_AD computes, and the two GCTRs cancel (R121). -/
theorem gcmAD_gcmAE (k iv p : Bytes) : gcmAD k iv (gcmAE k iv p).1 (gcmAE k iv p).2 = some p := by
  simp [gcmAD, gcmAE]

end Sys2Proof.Machine

namespace Sys2Proof.Proofs

open Machine

/-- Settles O24, by the turns of the product's loop when one factor has one bit or none. -/
theorem gf128HasOneAndZero : Obligations.Gf128HasOneAndZero := by
  unfold Obligations.Gf128HasOneAndZero
  exact fun y => ⟨one_gf128Mul y, gf128Mul_one y, zero_gf128Mul y, gf128Mul_zero y⟩

/-- Settles O25: inc32 replaces the last column by that of its bit string plus 1. -/
theorem inc32CountsModulo32Bits : Obligations.Inc32CountsModulo32Bits := by
  unfold Obligations.Inc32CountsModulo32Bits
  intro x
  refine ⟨rfl, ?_⟩
  rw [inc32, colBits_colOfBits]
  exact BitVec.toNat_add _ _

/-- Settles O26: GCTR is the XOR with a keystream at least as long as its input. -/
theorem gctrIsItsOwnInverse : Obligations.GctrIsItsOwnInverse := by
  unfold Obligations.GctrIsItsOwnInverse
  exact fun k icb x => ⟨gctr_length k icb x, gctr_gctr k icb x⟩

/-- Settles O27: no block is encrypted, and the hash of the one zero block is 0. -/
theorem emptyPlaintextTag : Obligations.EmptyPlaintextTag := by
  unfold Obligations.EmptyPlaintextTag
  intro k iv
  have hc : gctr k (inc32 (preCounter iv)) [] = [] := rfl
  rw [gcmAE, hc, gcmTag_nil]

/-- Settles O28, by the involution of GCTR and the comparison of the tag. -/
theorem gcmOpensWhatItSeals : Obligations.GcmOpensWhatItSeals := by
  unfold Obligations.GcmOpensWhatItSeals
  exact ⟨gcmAD_gcmAE, gcmAD_eq_none_iff⟩

/-- Settles O23: the table and the inverse byte by byte, the affine map by its rotations. -/
theorem sboxTableIsTheFormula : Obligations.SboxTableIsTheFormula := by
  unfold Obligations.SboxTableIsTheFormula
  exact ⟨sbox_eq_sboxFormula, gmul_gf8Inverse, gf8Inverse_zero, fun b i => affine_getLsbD b i.isLt⟩

end Sys2Proof.Proofs

/-! SUPPORT. No completion looks at IN_BUF but through the operand `IN_BUF[0..IN_LEN)` (10_state.md R39; 41_base64.md
R147). -/

namespace Sys2Proof.Machine

/-- The operand is the bytes of IN_BUF below IN_LEN (30_encoding.md R85). -/
theorem inputOperand_withInBuf {s : State} {m : Memory}
    (h : ∀ a < s.inLen.toNat, Memory.read m a = Memory.read s.inBuf a) :
    inputOperand { s with inBuf := m } = inputOperand s :=
  memory_slice_congr fun a ha => by simpa using h a ha

theorem encryptBody_withInBuf {s : State} {m : Memory}
    (h : inputOperand { s with inBuf := m } = inputOperand s) :
    encryptBody { s with inBuf := m } = encryptBody s := by
  rw [encryptBody, h]; rfl

theorem decryptBody_withInBuf {s : State} {m : Memory}
    (h : inputOperand { s with inBuf := m } = inputOperand s) :
    decryptBody { s with inBuf := m } = decryptBody s := by
  rw [decryptBody, h]; rfl

/-- A completion wipes IN_BUF, whatever it held (43_commands.md R166). -/
theorem finish_withInBuf (code : ErrCode) (out : Option Bytes) (s : State) (m : Memory) :
    finish code out { s with inBuf := m } = finish code out s := by
  unfold finish publish
  split <;> rfl

/-- Two IN_BUFs with the same operand make every completion the same; an ENCRYPT that waits keeps its IN_BUF
(42_trng.md R163). -/
theorem exec_withInBuf {i : Instr} {s : State} {m : Memory}
    (h : inputOperand { s with inBuf := m } = inputOperand s) (hw : ¬(i = .encrypt ∧ encryptBody s = none)) :
    exec i { s with inBuf := m } = exec i s := by
  cases i with
  | encrypt =>
    obtain ⟨r, hr⟩ := Option.ne_none_iff_exists'.1 fun hn => hw ⟨rfl, hn⟩
    simp only [exec, execEncrypt, encryptBody_withInBuf h, hr, finish_withInBuf]
  | decrypt => simp only [exec, execDecrypt, decryptBody_withInBuf h, finish_withInBuf]
  | wipe => simp only [exec, execWipe, finish_withInBuf]
  | illegal w => simp only [exec, execIllegal, finish_withInBuf]

end Sys2Proof.Machine

/-! SUPPORT. The base64 alphabet and the groups of 24 bits (41_base64.md R140, R141, R144). -/

namespace Sys2Proof.Machine

theorem b64char_toNat (v : BitVec 6) :
    (b64char v).toNat
      = if v.toNat < 26 then 0x41 + v.toNat
        else if v.toNat < 52 then 0x61 + (v.toNat - 26)
        else if v.toNat < 62 then 0x30 + (v.toNat - 52)
        else if v.toNat = 62 then 0x2B else 0x2F := by
  have hplus : (0x2B : Byte).toNat = 0x2B := rfl
  have hslash : (0x2F : Byte).toNat = 0x2F := rfl
  simp only [b64char, apply_ite BitVec.toNat, BitVec.toNat_ofNat, hplus, hslash]
  split_ifs <;> omega

/-- Each of the 64 values comes back from its character. -/
@[simp] theorem b64val_b64char : ∀ v : BitVec 6, b64val (b64char v) = some v := by decide

/-- Each byte is outside the alphabet or the character of its value. -/
theorem b64val_map_b64char (c : Byte) : (b64val c).map b64char = none ∨ (b64val c).map b64char = some c := by
  revert c; decide

theorem b64char_of_b64val {c : Byte} {v : BitVec 6} (h : b64val c = some v) : b64char v = c := by
  simpa [h] using b64val_map_b64char c

theorem b64val_padChar : b64val padChar = none := by decide

@[simp] theorem inAlphabet_b64char (v : BitVec 6) : inAlphabet (b64char v) = true := by simp [inAlphabet]

theorem inAlphabet_padChar : inAlphabet padChar = false := by rw [inAlphabet, b64val_padChar]; rfl

theorem ne_padChar_of_inAlphabet {c : Byte} (h : inAlphabet c = true) : c ≠ padChar := by
  rintro rfl; rw [inAlphabet_padChar] at h; cases h

@[simp] theorem b64char_ne_padChar (v : BitVec 6) : b64char v ≠ padChar :=
  ne_padChar_of_inAlphabet (inAlphabet_b64char v)

@[simp] theorem b64digit_b64char (v : BitVec 6) : b64digit (b64char v) = v := by simp [b64digit]

theorem b64digit_padChar : b64digit padChar = 0 := by rw [b64digit, b64val_padChar]; rfl

theorem b64char_b64digit {c : Byte} (h : inAlphabet c = true) : b64char (b64digit c) = c := by
  obtain ⟨v, hv⟩ := Option.isSome_iff_exists.1 h
  rw [b64digit, hv]
  exact b64char_of_b64val hv

theorem bitVec_toNat_append {m n : Nat} (x : BitVec m) (y : BitVec n) :
    (x ++ y).toNat = x.toNat * 2 ^ n + y.toNat := by
  rw [BitVec.toNat_append, ← Nat.shiftLeft_add_eq_or_of_lt y.isLt, Nat.shiftLeft_eq]

theorem bitVec_toNat_extractLsb' {w : Nat} (v : BitVec w) (start len : Nat) :
    (v.extractLsb' start len).toNat = v.toNat / 2 ^ start % 2 ^ len := by
  rw [BitVec.extractLsb'_toNat, Nat.shiftRight_eq_div_pow]

/-- Four digits, high to low, of 24 bits are those 24 bits. -/
theorem append_sextets (v : BitVec 24) :
    v.extractLsb' 18 6 ++ v.extractLsb' 12 6 ++ v.extractLsb' 6 6 ++ v.extractLsb' 0 6 = v := by
  apply BitVec.eq_of_toNat_eq
  simp only [bitVec_toNat_append, bitVec_toNat_extractLsb']
  omega

/-- Three bytes, high to low, of 24 bits are those 24 bits. -/
theorem append_octets (v : BitVec 24) :
    v.extractLsb' 16 8 ++ v.extractLsb' 8 8 ++ v.extractLsb' 0 8 = v := by
  apply BitVec.eq_of_toNat_eq
  simp only [bitVec_toNat_append, bitVec_toNat_extractLsb']
  omega

/-- The bytes of the digits of a group of three bytes are those three bytes (R141, R144). -/
theorem b64bytes_b64chars (x y z : Byte) :
    b64bytes (b64digit (b64chars x y z).1) (b64digit (b64chars x y z).2.1) (b64digit (b64chars x y z).2.2.1)
      (b64digit (b64chars x y z).2.2.2) = [x, y, z] := by
  simp only [b64bytes, b64chars, b64digit_b64char, append_sextets, List.cons.injEq, and_true, ← BitVec.toNat_inj,
    bitVec_toNat_append, bitVec_toNat_extractLsb']
  omega

/-- The characters of the bytes of four digits are those of the four digits (R141, R144). -/
theorem b64chars_octets (a b c d : BitVec 6) :
    b64chars ((a ++ b ++ c ++ d).extractLsb' 16 8) ((a ++ b ++ c ++ d).extractLsb' 8 8)
      ((a ++ b ++ c ++ d).extractLsb' 0 8) = (b64char a, b64char b, b64char c, b64char d) := by
  have hdigits : (a ++ b ++ c ++ d).extractLsb' 18 6 = a ∧ (a ++ b ++ c ++ d).extractLsb' 12 6 = b
      ∧ (a ++ b ++ c ++ d).extractLsb' 6 6 = c ∧ (a ++ b ++ c ++ d).extractLsb' 0 6 = d := by
    simp only [← BitVec.toNat_inj, bitVec_toNat_append, bitVec_toNat_extractLsb']
    omega
  obtain ⟨ha, hb, hc, hd⟩ := hdigits
  simp only [b64chars, append_octets, ha, hb, hc, hd]

/-- A whole group encodes to the characters of its four digits (R141). -/
theorem b64enc_b64bytes_append (a b c d : BitVec 6) (rest : Bytes) :
    b64enc (b64bytes a b c d ++ rest) = b64char a :: b64char b :: b64char c :: b64char d :: b64enc rest := by
  simp only [b64bytes, List.cons_append, List.nil_append, b64enc, b64chars_octets]

/-- A group of two bytes leaves the last digit and the low 2 bits of the third zero (R143, clause 5). -/
theorem b64digit_of_two_bytes (x y : Byte) :
    (b64digit (b64chars x y 0).2.2.1).toNat % 4 = 0 ∧ b64digit (b64chars x y 0).2.2.2 = 0 := by
  simp only [b64chars, b64digit_b64char, ← BitVec.toNat_inj, bitVec_toNat_append, bitVec_toNat_extractLsb',
    BitVec.ofNat_eq_ofNat, BitVec.toNat_ofNat]
  omega

/-- A group of one byte leaves the last two digits and the low 4 bits of the second zero (R143, clause 4). -/
theorem b64digit_of_one_byte (x : Byte) :
    (b64digit (b64chars x 0 0).2.1).toNat % 16 = 0 ∧ b64digit (b64chars x 0 0).2.2.1 = 0
      ∧ b64digit (b64chars x 0 0).2.2.2 = 0 := by
  simp only [b64chars, b64digit_b64char, ← BitVec.toNat_inj, bitVec_toNat_append, bitVec_toNat_extractLsb',
    BitVec.ofNat_eq_ofNat, BitVec.toNat_ofNat]
  omega

/-- Two bytes of a third digit with low 2 bits zero and no fourth encode to the three digits and one '=' (R141,
R143, clause 5). -/
theorem b64enc_take_two_b64bytes (a b : BitVec 6) {c : BitVec 6} (hc : c.toNat % 4 = 0) :
    b64enc ((b64bytes a b c 0).take 2) = [b64char a, b64char b, b64char c, padChar] := by
  have hlast : (a ++ b ++ c ++ (0 : BitVec 6)).extractLsb' 0 8 = (0 : Byte) := by
    simp only [← BitVec.toNat_inj, bitVec_toNat_append, bitVec_toNat_extractLsb', BitVec.ofNat_eq_ofNat,
      BitVec.toNat_ofNat]
    omega
  have hchars := b64chars_octets a b c 0
  rw [hlast] at hchars
  simp only [b64bytes, List.take_succ_cons, List.take_zero, b64enc, hchars]

/-- One byte of a second digit with low 4 bits zero and no third encodes to the two digits and two '=' (R141, R143,
clause 4). -/
theorem b64enc_take_one_b64bytes (a : BitVec 6) {b : BitVec 6} (hb : b.toNat % 16 = 0) :
    b64enc ((b64bytes a b 0 0).take 1) = [b64char a, b64char b, padChar, padChar] := by
  have hzero : (a ++ b ++ (0 : BitVec 6) ++ (0 : BitVec 6)).extractLsb' 8 8 = (0 : Byte)
      ∧ (a ++ b ++ (0 : BitVec 6) ++ (0 : BitVec 6)).extractLsb' 0 8 = (0 : Byte) := by
    simp only [← BitVec.toNat_inj, bitVec_toNat_append, bitVec_toNat_extractLsb', BitVec.ofNat_eq_ofNat,
      BitVec.toNat_ofNat]
    omega
  obtain ⟨hmid, hlast⟩ := hzero
  have hchars := b64chars_octets a b 0 0
  rw [hmid, hlast] at hchars
  simp only [b64bytes, List.take_succ_cons, List.take_zero, b64enc, hchars]

end Sys2Proof.Machine

/-! SUPPORT. The valid texts, by their quanta of four characters (41_base64.md R143). -/

namespace Sys2Proof.Machine

/-- The three endings of a valid text (R143, clauses 3 to 5). -/
theorem b64tailValid_iff (x y z : Byte) :
    b64tailValid x y z = true
      ↔ (y = padChar ∧ z = padChar ∧ (b64digit x).toNat % 16 = 0)
        ∨ (inAlphabet y = true ∧ z = padChar ∧ (b64digit y).toNat % 4 = 0)
        ∨ (inAlphabet y = true ∧ inAlphabet z = true) := by
  have hy : inAlphabet y = true → y ≠ padChar := ne_padChar_of_inAlphabet
  have hz : inAlphabet z = true → z ≠ padChar := ne_padChar_of_inAlphabet
  unfold b64tailValid
  split_ifs <;> simp only [Bool.and_eq_true, decide_eq_true_eq, beq_iff_eq] <;> tauto

theorem all_take_inAlphabet_iff {s : Bytes} {n : Nat} (hn : n ≤ s.length) :
    (s.take n).all inAlphabet = true ↔ ∀ i < n, inAlphabet (s.getD i 0) = true := by
  rw [List.all_eq_true]
  constructor
  · intro h i hi
    rw [List.getD_eq_getElem s 0 (hi.trans_le hn)]
    exact h _ (List.mem_take_iff_getElem.2 ⟨i, by omega, rfl⟩)
  · intro h c hc
    obtain ⟨i, hi, rfl⟩ := List.mem_take_iff_getElem.1 hc
    rw [← List.getD_eq_getElem s 0]
    exact h i (by omega)

/-- Validity by the clauses of R143; clauses 3 to 5 are those of the tail. -/
theorem b64valid_iff (s : Bytes) :
    b64valid s = true
      ↔ s.length % 4 = 0 ∧ (∀ i < s.length - 2, inAlphabet (s.getD i 0) = true)
        ∧ (4 ≤ s.length →
          b64tailValid (s.getD (s.length - 3) 0) (s.getD (s.length - 2) 0) (s.getD (s.length - 1) 0) = true) := by
  simp only [b64valid, Bool.and_eq_true, Bool.or_eq_true, beq_iff_eq,
    all_take_inAlphabet_iff (Nat.sub_le s.length 2), and_assoc]
  refine and_congr_right fun hmod => and_congr_right fun _ => ?_
  have hlen : 4 ≤ s.length ↔ s.length ≠ 0 := by omega
  rw [hlen, or_iff_not_imp_left]

/-- A text of one quantum is all tail but for its first character. -/
theorem b64valid_quantum (c0 c1 c2 c3 : Byte) :
    b64valid [c0, c1, c2, c3] = true
      ↔ inAlphabet c0 = true ∧ inAlphabet c1 = true ∧ b64tailValid c1 c2 c3 = true := by
  simp [b64valid, and_assoc]

/-- A quantum in front of others has no '=' and leaves the tail to them. -/
theorem b64valid_cons (c0 c1 c2 c3 : Byte) {rest : Bytes} (hne : rest ≠ []) :
    b64valid (c0 :: c1 :: c2 :: c3 :: rest) = true
      ↔ inAlphabet c0 = true ∧ inAlphabet c1 = true ∧ inAlphabet c2 = true ∧ inAlphabet c3 = true
        ∧ b64valid rest = true := by
  have hpos : 0 < rest.length := List.length_pos_iff.2 hne
  have hlen : (rest.length + 1 + 1 + 1 + 1) % 4 = rest.length % 4 := by omega
  by_cases hmod : rest.length % 4 = 0
  · have htake : rest.length + 4 - 2 = rest.length - 2 + 4 := by omega
    have hlast : rest.length + 4 - 1 = rest.length - 1 + 4 := by omega
    have hthird : rest.length + 4 - 3 = rest.length - 3 + 4 := by omega
    simp [b64valid, hlen, hmod, htake, hlast, hthird, hne, and_assoc]
  · simp [b64valid, hlen, hmod]

/-- Four characters of the alphabet in front of a valid text. -/
theorem b64valid_cons_of_inAlphabet {c0 c1 c2 c3 : Byte} {rest : Bytes} (h0 : inAlphabet c0 = true)
    (h1 : inAlphabet c1 = true) (h2 : inAlphabet c2 = true) (h3 : inAlphabet c3 = true)
    (hrest : b64valid rest = true) : b64valid (c0 :: c1 :: c2 :: c3 :: rest) = true := by
  by_cases hne : rest = []
  · subst hne
    exact (b64valid_quantum c0 c1 c2 c3).2 ⟨h0, h1, (b64tailValid_iff c1 c2 c3).2 (.inr (.inr ⟨h2, h3⟩))⟩
  · exact (b64valid_cons c0 c1 c2 c3 hne).2 ⟨h0, h1, h2, h3, hrest⟩

theorem b64digit_toNat_mod_iff (c : Byte) (n : Nat) :
    (b64digit c).toNat % n = 0 ↔ ∀ v, b64val c = some v → v.toNat % n = 0 := by
  unfold b64digit
  cases b64val c <;> simp

/-- The three endings as R143 lists them: clause 3 says which characters, clauses 4 and 5 which digits. -/
theorem b64tailValid_iff_clauses (x y z : Byte) :
    b64tailValid x y z = true
      ↔ ((inAlphabet y = true ∧ inAlphabet z = true) ∨ (inAlphabet y = true ∧ z = padChar)
          ∨ (y = padChar ∧ z = padChar))
        ∧ (y = padChar → z = padChar → ∀ v, b64val x = some v → v.toNat % 16 = 0)
        ∧ (y ≠ padChar → z = padChar → ∀ v, b64val y = some v → v.toNat % 4 = 0) := by
  rw [b64tailValid_iff, ← b64digit_toNat_mod_iff, ← b64digit_toNat_mod_iff]
  have hy : inAlphabet y = true → y ≠ padChar := ne_padChar_of_inAlphabet
  have hz : inAlphabet z = true → z ≠ padChar := ne_padChar_of_inAlphabet
  tauto

end Sys2Proof.Machine

/-! SUPPORT. The encoder and the decoder undo each other on the valid texts (41_base64.md R146). -/

namespace Sys2Proof.Machine

/-- A quantum that does not end in '=' gives its three bytes (R144). -/
theorem b64quanta_cons (c0 c1 c2 : Byte) {c3 : Byte} (rest : Bytes) (h : c3 ≠ padChar) :
    b64quanta (c0 :: c1 :: c2 :: c3 :: rest)
      = b64bytes (b64digit c0) (b64digit c1) (b64digit c2) (b64digit c3) ++ b64quanta rest := by
  cases rest with
  | nil => simp only [b64quanta, npad, if_neg h]; rfl
  | cons c rest => simp only [b64quanta]

theorem b64valid_b64enc (b : Bytes) : b64valid (b64enc b) = true := by
  induction b using b64enc.induct with
  | case1 => rfl
  | case2 x =>
    obtain ⟨hmod, -⟩ := b64digit_of_one_byte x
    exact (b64valid_quantum _ _ _ _).2 ⟨inAlphabet_b64char _, inAlphabet_b64char _,
      (b64tailValid_iff _ _ _).2 (.inl ⟨rfl, rfl, hmod⟩)⟩
  | case3 x y =>
    obtain ⟨hmod, -⟩ := b64digit_of_two_bytes x y
    exact (b64valid_quantum _ _ _ _).2 ⟨inAlphabet_b64char _, inAlphabet_b64char _,
      (b64tailValid_iff _ _ _).2 (.inr (.inl ⟨inAlphabet_b64char _, rfl, hmod⟩))⟩
  | case4 x y z rest ih =>
    exact b64valid_cons_of_inAlphabet (inAlphabet_b64char _) (inAlphabet_b64char _) (inAlphabet_b64char _)
      (inAlphabet_b64char _) ih

/-- Group by group: a '=' stands for a zero digit of the padded group (R144). -/
theorem b64quanta_b64enc (b : Bytes) : b64quanta (b64enc b) = b := by
  induction b using b64enc.induct with
  | case1 => rfl
  | case2 x =>
    obtain ⟨-, h2, h3⟩ := b64digit_of_one_byte x
    have hbytes := b64bytes_b64chars x 0 0
    rw [h2, h3] at hbytes
    simp only [b64enc, b64quanta, npad, b64digit_padChar, hbytes]
    rfl
  | case3 x y =>
    obtain ⟨-, h3⟩ := b64digit_of_two_bytes x y
    have hbytes := b64bytes_b64chars x y 0
    rw [h3] at hbytes
    have hnpad : npad (b64chars x y 0).2.2.1 padChar = 1 := if_neg (b64char_ne_padChar _)
    simp only [b64enc, b64quanta, hnpad, b64digit_padChar, hbytes]
    rfl
  | case4 x y z rest ih =>
    have hlast : (b64chars x y z).2.2.2 ≠ padChar := b64char_ne_padChar _
    rw [b64enc, b64quanta_cons _ _ _ _ hlast, b64bytes_b64chars, ih]
    rfl

/-- The last quantum of a valid text, in each of its three endings (R143, R144). -/
theorem b64enc_b64quanta_quantum {c0 c1 c2 c3 : Byte} (h : b64valid [c0, c1, c2, c3] = true) :
    b64enc (b64quanta [c0, c1, c2, c3]) = [c0, c1, c2, c3] := by
  obtain ⟨h0, h1, htail⟩ := (b64valid_quantum c0 c1 c2 c3).1 h
  obtain ⟨rfl, rfl, hmod⟩ | ⟨h2, rfl, hmod⟩ | ⟨h2, h3⟩ := (b64tailValid_iff c1 c2 c3).1 htail
  · have hnpad : npad padChar padChar = 2 := rfl
    rw [b64quanta, hnpad, b64digit_padChar, b64enc_take_one_b64bytes _ hmod, b64char_b64digit h0,
      b64char_b64digit h1]
  · have hnpad : npad c2 padChar = 1 := if_neg (ne_padChar_of_inAlphabet h2)
    rw [b64quanta, hnpad, b64digit_padChar, b64enc_take_two_b64bytes _ _ hmod, b64char_b64digit h0,
      b64char_b64digit h1, b64char_b64digit h2]
  · rw [b64quanta_cons _ _ _ _ (ne_padChar_of_inAlphabet h3), b64enc_b64bytes_append, b64char_b64digit h0,
      b64char_b64digit h1, b64char_b64digit h2, b64char_b64digit h3]
    rfl

/-- Quantum by quantum; only the last one may be padded. -/
theorem b64enc_b64quanta {s : Bytes} (h : b64valid s = true) : b64enc (b64quanta s) = s := by
  induction s using b64quanta.induct with
  | case1 c0 c1 c2 c3 => exact b64enc_b64quanta_quantum h
  | case2 c0 c1 c2 c3 rest hne ih =>
    obtain ⟨h0, h1, h2, h3, hrest⟩ := (b64valid_cons c0 c1 c2 c3 hne).1 h
    rw [b64quanta_cons _ _ _ _ (ne_padChar_of_inAlphabet h3), b64enc_b64bytes_append, ih hrest,
      b64char_b64digit h0, b64char_b64digit h1, b64char_b64digit h2, b64char_b64digit h3]
  | case3 s _ hmore =>
    obtain ⟨hmod, -⟩ := (b64valid_iff s).1 h
    match s, hmod, hmore with
    | [], _, _ => rfl
    | c0 :: c1 :: c2 :: c3 :: rest, _, hmore => exact (hmore c0 c1 c2 c3 rest rfl).elim

theorem b64dec_eq_some_iff (s b : Bytes) : b64dec s = some b ↔ b64enc b = s := by
  constructor
  · intro h
    unfold b64dec at h
    split at h
    next hv => cases h; exact b64enc_b64quanta hv
    next => cases h
  · rintro rfl
    rw [b64dec, if_pos (b64valid_b64enc b), b64quanta_b64enc]

/-- A text is valid when it is the encoding of one byte sequence, the one it decodes to (R143). -/
theorem b64valid_iff_existsUnique (s : Bytes) : b64valid s = true ↔ ∃! b, b64enc b = s := by
  constructor
  · intro h
    exact ⟨b64quanta s, b64enc_b64quanta h, fun b hb => hb ▸ (b64quanta_b64enc b).symm⟩
  · rintro ⟨b, rfl, -⟩
    exact b64valid_b64enc b

end Sys2Proof.Machine

namespace Sys2Proof.Proofs

open Machine

/-- Settles O20: the operand is the bytes of IN_BUF below IN_LEN, and the rest is wiped unread. -/
theorem inputBeyondInLenIsIgnored : Obligations.InputBeyondInLenIsIgnored := by
  unfold Obligations.InputBeyondInLenIsIgnored
  exact fun _ _ _ h hw => exec_withInBuf (inputOperand_withInBuf h) hw

/-- Settles O29, value by value and byte by byte. -/
theorem alphabetAndItsInverse : Obligations.AlphabetAndItsInverse := by
  unfold Obligations.AlphabetAndItsInverse
  exact ⟨b64char_toNat, b64val_b64char, fun _ _ => b64char_of_b64val, by decide, by decide, by decide⟩

/-- Settles O30, by induction over the encoder. -/
theorem base64TextLength : Obligations.Base64TextLength := by
  unfold Obligations.Base64TextLength
  exact ⟨fun b => ⟨b64enc_length b, rfl⟩, rfl, rfl, rfl, rfl, rfl⟩

/-- Settles O31: the clauses from the tail's three endings, the one byte sequence from the round trips. -/
theorem validTextsAreTheEncodersOutputs : Obligations.ValidTextsAreTheEncodersOutputs := by
  unfold Obligations.ValidTextsAreTheEncodersOutputs
  refine ⟨fun s => ?_, rfl, b64valid_iff_existsUnique⟩
  rw [b64valid_iff, b64tailValid_iff_clauses]
  simp only [imp_and, inAlphabet]

/-- Settles O32, by the two round trips. -/
theorem base64IsCanonical : Obligations.Base64IsCanonical := by
  unfold Obligations.Base64IsCanonical
  refine ⟨fun b => (b64dec_eq_some_iff _ b).2 rfl, fun s b => (b64dec_eq_some_iff s b).1, fun s s' b h h' => ?_⟩
  exact ((b64dec_eq_some_iff s b).1 h).symm.trans ((b64dec_eq_some_iff s' b).1 h')

end Sys2Proof.Proofs

/-! SUPPORT. When a draw is outstanding, and what its answer changes (42_trng.md R158, R163). -/

namespace Sys2Proof

/-- ENCRYPT's word is 1 and no other, because the word comes back from its command (30_encoding.md R81). -/
theorem decode_eq_encrypt_iff (w : Word) : decode w = .encrypt ↔ w = 0x00000001 := by
  refine ⟨fun h => ?_, fun h => by rw [h]; rfl⟩
  calc
    w = encode (decode w) := (encode_decode w).symm
    _ = encode .encrypt := by rw [h]

end Sys2Proof

namespace Sys2Proof.Machine

theorem keyLengthOk_iff (s : State) : keyLengthOk s = true ↔ s.keyLen = 32 := beq_iff_eq

theorem encryptFits_iff (s : State) : encryptFits s = true ↔ b64len (s.inLen.toNat + 44) ≤ s.cfg.bufSize :=
  decide_eq_true_iff

/-- A draw is outstanding when an ENCRYPT past its checks is in flight, outside reset, and unanswered (R158). -/
theorem drawOutstanding_iff (s : State) :
    drawOutstanding s = true ↔ s.fsm = .busy ∧ s.inReset = false ∧ s.cmdLatch = 0x00000001 ∧ s.keyLen = 32
      ∧ b64len (s.inLen.toNat + 44) ≤ s.cfg.bufSize ∧ s.trng = none := by
  simp only [drawOutstanding, wantsDraw, Bool.and_eq_true, beq_iff_eq, engineRuns_iff, decode_eq_encrypt_iff,
    keyLengthOk_iff, encryptFits_iff, and_assoc]

theorem sourceAnswer_of_drawOutstanding {s : State} (a : TrngAnswer) (h : drawOutstanding s = true) :
    sourceAnswer a s = { s with trng := some a, draws := s.draws + 1 } := if_pos h

theorem sourceAnswer_of_not_drawOutstanding {s : State} (a : TrngAnswer) (h : ¬drawOutstanding s = true) :
    sourceAnswer a s = s := if_neg h

/-- The source leaves no draw outstanding: it answers it, or there was none (R158). -/
@[simp] theorem drawOutstanding_sourceAnswer (a : TrngAnswer) (s : State) :
    drawOutstanding (sourceAnswer a s) = false := by
  obtain ⟨-, h⟩ | ⟨hd, h⟩ := sourceAnswer_cases a s
  · rw [h]; exact Bool.and_false _
  · rw [h, hd]

/-- A second answer is never taken (R158). -/
@[simp] theorem sourceAnswer_sourceAnswer (a b : TrngAnswer) (s : State) :
    sourceAnswer b (sourceAnswer a s) = sourceAnswer a s :=
  sourceAnswer_of_not_drawOutstanding b (by simp)

@[simp] theorem engineRuns_sourceAnswer (a : TrngAnswer) (s : State) :
    engineRuns (sourceAnswer a s) = engineRuns s := by
  obtain ⟨-, h⟩ | ⟨-, h⟩ := sourceAnswer_cases a s
  · rw [h]; rfl
  · rw [h]

theorem completionEnabled_of_drawOutstanding {s : State} (h : drawOutstanding s = true) :
    completionEnabled s = false := by
  simp [completionEnabled, h]

/-- After the source's turn nothing holds back the completion of a command in flight (R163). -/
@[simp] theorem completionEnabled_sourceAnswer (a : TrngAnswer) (s : State) :
    completionEnabled (sourceAnswer a s) = engineRuns s := by
  simp [completionEnabled]

/-- ENCRYPT's completion step does nothing while its body waits (R163). -/
theorem exec_encrypt_waits {s : State} (h : encryptBody s = none) : exec .encrypt s = .next s := by
  simp only [exec, execEncrypt, h]

theorem exec_encrypt_finish {s : State} {r : ErrCode × Option Bytes} (h : encryptBody s = some r) :
    exec .encrypt s = .next (finish r.1 r.2 s) := by
  simp only [exec, execEncrypt, h]

/-- The engine's turn has nothing to do while a draw is outstanding (R163). -/
theorem runTurn_engine_waits {s : State} (h : drawOutstanding s = true) : runTurn .engine s = .next s := by
  obtain ⟨hf, hr, hcmd, hkey, hfits, htrng⟩ := (drawOutstanding_iff s).1 h
  have hbody : encryptBody s = none :=
    (encryptBody_none_iff s).2 ⟨(keyLengthOk_iff s).2 hkey, (encryptFits_iff s).2 hfits, htrng⟩
  rw [runTurn_engine hf hr, (decode_eq_encrypt_iff _).2 hcmd, exec_encrypt_waits hbody]

/-- A failed draw is ENCRYPT's last check (43_commands.md R167). -/
theorem encryptBody_of_fail {s : State} (hkey : keyLengthOk s = true) (hfits : encryptFits s = true)
    (h : s.trng = some .fail) : encryptBody s = some (.randomSourceUnavailable, none) := by
  simp [encryptBody, hkey, hfits, h]

/-- A completion discards the answer held, whatever it was (R160). -/
theorem finish_withTrng (code : ErrCode) (out : Option Bytes) (s : State) (x : Option TrngAnswer) :
    finish code out { s with trng := x } = finish code out s := by
  unfold finish publish
  split <;> rfl

/-- ENCRYPT alone looks at the answer held (R158). -/
theorem exec_withTrng {i : Instr} (hi : i ≠ .encrypt) (s : State) (x : Option TrngAnswer) :
    exec i { s with trng := x } = exec i s := by
  have hbody : decryptBody { s with trng := x } = decryptBody s := rfl
  cases i with
  | encrypt => exact absurd rfl hi
  | decrypt => simp only [exec, execDecrypt, hbody, finish_withTrng]
  | wipe => simp only [exec, execWipe, finish_withTrng]
  | illegal w => simp only [exec, execIllegal, finish_withTrng]

/-- The engine waits or completes by `finish`; neither counts a draw. -/
theorem exec_draws {i : Instr} {s t : State} (h : exec i s = .next t) : t.draws = s.draws := by
  obtain ⟨-, -, rfl⟩ | ⟨code, out, rfl⟩ := exec_cases h
  · rfl
  · exact finish_draws code out s

end Sys2Proof.Machine

namespace Sys2Proof.Proofs

open Machine

/-- Settles O10: an outstanding draw disables the completion, and the source's answer is the draw's end. -/
theorem encryptWaitsForTheSource : Obligations.EncryptWaitsForTheSource := by
  unfold Obligations.EncryptWaitsForTheSource
  intro s rest a hf hr hcmd hkey hfits htrng
  have hdraw : drawOutstanding s = true := (drawOutstanding_iff s).2 ⟨hf, hr, hcmd, hkey, hfits, htrng⟩
  refine ⟨completionEnabled_of_drawOutstanding hdraw, fun h => ?_, ?_, ?_⟩
  · rw [step_of_sched h]; exact runTurn_engine_waits hdraw
  · rw [sourceAnswer_of_drawOutstanding a hdraw]
  · rw [completionEnabled_sourceAnswer]; exact (engineRuns_iff s).2 ⟨hf, hr⟩

/-- Settles O21: an answer is taken when a draw is outstanding, which is then over, and no completion but
ENCRYPT's looks at it. -/
theorem onlyAnEncryptPastItsChecksDraws : Obligations.OnlyAnEncryptPastItsChecksDraws := by
  unfold Obligations.OnlyAnEncryptPastItsChecksDraws
  refine ⟨fun a s => ?_, fun a b s _ => .inl (sourceAnswer_sourceAnswer a b s),
    fun i s x hi => exec_withTrng hi s x, fun i s t => exec_draws⟩
  rw [← drawOutstanding_iff]
  exact ⟨sourceAnswer_of_drawOutstanding a, sourceAnswer_of_not_drawOutstanding a⟩

/-- Settles O22: the failed draw gives code 4 and no output, so its completion publishes nothing. -/
theorem failedDrawGivesCodeFour : Obligations.FailedDrawGivesCodeFour := by
  unfold Obligations.FailedDrawGivesCodeFour
  intro s hkey hfits htrng
  rw [exec_encrypt_finish (encryptBody_of_fail ((keyLengthOk_iff s).2 hkey) ((encryptFits_iff s).2 hfits) htrng)]
  rfl

end Sys2Proof.Proofs

/-! SUPPORT. What each command's body gives, check by check, and what a completion leaves of it (43_commands.md R166
to R171; 60_exceptions.md R183, R184). -/

namespace Sys2Proof.Machine

/-- A completion touches nothing outside the command's state, the result's flags and OUT (43_commands.md R166). -/
theorem finish_eq_withOut (code : ErrCode) (out : Option Bytes) (s : State) :
    finish code out s
      = { s with
          keyBuf := [], keyLen := 0, inBuf := [], inLen := 0, scratch := [], trng := none, cmdLatch := 0,
          err := errNumber code, done := true, fsm := .idle,
          outBuf := (finish code out s).outBuf, outLen := (finish code out s).outLen } := by
  obtain ⟨bs, rfl, rfl⟩ | hp := publish_cases code out s
  · rfl
  · rw [finish, hp]

/-- On an error code, or without an output, OUT stays as it was (R166). -/
theorem finish_out_eq {code : ErrCode} {out : Option Bytes} (s : State) (h : code ≠ .ok ∨ out = none) :
    (finish code out s).outBuf = s.outBuf ∧ (finish code out s).outLen = s.outLen := by
  rw [finish_outBuf, finish_outLen, publish_eq_self s h]
  exact ⟨rfl, rfl⟩

/-- What a completion leaves in OUT depends on OUT, the code and the output alone (R166). -/
theorem finish_out_congr {s s' : State} (code : ErrCode) (out : Option Bytes) (hbuf : s'.outBuf = s.outBuf)
    (hlen : s'.outLen = s.outLen) :
    (finish code out s').outBuf = (finish code out s).outBuf
      ∧ (finish code out s').outLen = (finish code out s).outLen := by
  rw [finish_outBuf, finish_outBuf, finish_outLen, finish_outLen]
  unfold publish
  split
  · exact ⟨by rw [hbuf], rfl⟩
  · exact ⟨hbuf, hlen⟩

theorem errNumber_ne_zero_iff (code : ErrCode) : errNumber code ≠ 0 ↔ code ≠ .ok := by
  cases code <;> decide

/-- Every byte of OUT_BUF after a successful completion with an output (R166). -/
theorem memory_read_finish (bs : Bytes) (s : State) (a : Nat) :
    Memory.read (finish .ok (some bs) s).outBuf a
      = if a < bs.length then bs.getD a 0 else Memory.read s.outBuf a := by
  rw [finish_outBuf, publish_ok_some_outBuf, memory_read_writeBytes]
  simp only [Nat.zero_le, true_and, Nat.zero_add, Nat.sub_zero]

/-- An output that fits a legal buffer has its length in OUT_LEN (10_state.md R37). -/
theorem finish_outLen_toNat {bs : Bytes} {s : State} (hc : s.cfg.Legal) (hlen : bs.length ≤ s.cfg.bufSize) :
    (finish .ok (some bs) s).outLen.toNat = bs.length := by
  obtain ⟨-, -, hmax⟩ := hc
  rw [finish_outLen, publish_ok_some_outLen, BitVec.toNat_ofNat]
  exact Nat.mod_eq_of_lt (by omega)

/-- Only the result's own bytes of OUT_BUF change in a completion whose output fits (R166). -/
theorem memory_read_finish_beyond {code : ErrCode} {out : Option Bytes} {s : State} {a : Nat} (hc : s.cfg.Legal)
    (hlen : ∀ bs, out = some bs → bs.length ≤ s.cfg.bufSize) (ha : (finish code out s).outLen.toNat ≤ a) :
    Memory.read (finish code out s).outBuf a = Memory.read s.outBuf a := by
  obtain ⟨bs, rfl, rfl⟩ | hp := publish_cases code out s
  · rw [finish_outLen_toNat hc (hlen bs rfl)] at ha
    rw [memory_read_finish, if_neg (Nat.not_lt.2 ha)]
  · rw [finish_outBuf, hp]

/-- With OUT_LEN = 0 and OUT_BUF empty no offset of the OUT window, nor any beyond it, reads a result
(20_memory.md R63, R70). -/
theorem hostRead_from_outWindow_of_empty {s : State} {off : Nat} (hlen : s.outLen = 0) (hbuf : s.outBuf = [])
    (h : 0x20000 ≤ off) : hostRead s off = 0 := by
  by_cases hlt : off < 0x30000
  · exact hostRead_out_of_empty hlen hbuf hlt (.inr h)
  · have noRegister : ∀ o < 0x20000, off ≠ o := by omega
    simp [hostRead, noRegister, hlt, Config.offId, Config.offCaps, Config.offCtrl, Config.offStatus, Config.offKeyLen,
      Config.offInLen, Config.offOutLen]

/-- A frame opens to what it was sealed from (30_encoding.md R86, R87; 40_aes_gcm.md R121). -/
theorem decryptFrame_buildFrame {salt iv : Bytes} (k p : Bytes) (hs : salt.length = 16) (hi : iv.length = 12) :
    decryptFrame k (buildFrame salt iv (gcmAE k iv p).1 (gcmAE k iv p).2) = some p := by
  have htag : (gcmAE k iv p).2.length = 16 := gcmTag_length k iv _
  rw [decryptFrame, frameIv_buildFrame _ _ hs hi, frameCiphertext_buildFrame _ hs hi htag,
    frameTag_buildFrame _ _ _ htag, gcmAD_gcmAE]

/-- A frame with another tag does not open (40_aes_gcm.md R120). -/
theorem decryptFrame_buildFrame_of_ne_tag {salt iv t : Bytes} (k c : Bytes) (hs : salt.length = 16)
    (hi : iv.length = 12) (ht : t.length = 16) (hne : t ≠ gcmTag k iv c) :
    decryptFrame k (buildFrame salt iv c t) = none := by
  rw [decryptFrame, frameIv_buildFrame _ _ hs hi, frameCiphertext_buildFrame _ hs hi ht,
    frameTag_buildFrame _ _ _ ht, gcmAD_eq_none_iff]
  exact hne

/-- The fields that are read lie beyond the salt (R123). -/
theorem decryptFrame_of_drop_salt {f f' : Bytes} (k : Bytes) (hlen : f'.length = f.length)
    (hdrop : f'.drop 16 = f.drop 16) (h44 : 44 ≤ f.length) : decryptFrame k f' = decryptFrame k f := by
  have hdrop' : ∀ n, 16 ≤ n → f'.drop n = f.drop n := fun n hn => by
    obtain ⟨m, rfl⟩ := Nat.exists_eq_add_of_le hn
    rw [← List.drop_drop, hdrop, List.drop_drop]
  rw [decryptFrame, decryptFrame, frameIv, frameIv, hdrop, frameCiphertext, frameCiphertext, hlen,
    hdrop' 28 (by decide), frameTag, frameTag, hlen, hdrop' (f.length - 16) (by omega)]

/-- A key of the wrong length is ENCRYPT's first check and DECRYPT's (R183, R184). -/
theorem keyLengthOk_eq_false {s : State} (h : s.keyLen ≠ 32) : keyLengthOk s = false := by
  rw [Bool.eq_false_iff, ne_eq, keyLengthOk_iff]; exact h

theorem encryptBody_of_keyLen {s : State} (h : s.keyLen ≠ 32) : encryptBody s = some (.invalidKeyLength, none) := by
  simp [encryptBody, keyLengthOk_eq_false h]

theorem decryptBody_of_keyLen {s : State} (h : s.keyLen ≠ 32) : decryptBody s = (.invalidKeyLength, none) := by
  simp [decryptBody, keyLengthOk_eq_false h]

/-- ENCRYPT past its checks with a draw answered (R167). -/
theorem encryptBody_of_ok {s : State} {d : Vector Byte 28} (hkey : s.keyLen = 32)
    (hfits : b64len (s.inLen.toNat + 44) ≤ s.cfg.bufSize) (h : s.trng = some (.ok d)) :
    encryptBody s = some (.ok, some (encryptText (keyOperand s) d (inputOperand s))) := by
  simp [encryptBody, (keyLengthOk_iff s).2 hkey, (encryptFits_iff s).2 hfits, h]

theorem decryptFits_iff (s : State) : decryptFits s = true ↔ s.inLen.toNat ≤ s.cfg.bufSize := decide_eq_true_iff

/-- DECRYPT past its first two checks and with a valid text depends on the key and the frame alone (R168). -/
theorem decryptBody_of_text {s : State} {f : Bytes} (hkey : s.keyLen = 32) (hfits : s.inLen.toNat ≤ s.cfg.bufSize)
    (hf : b64dec (inputOperand s) = some f) :
    decryptBody s
      = if f.length < 44 then (.malformedBlob, none)
        else (decryptFrame (keyOperand s) f).elim (.authenticationFailed, none) fun p => (.ok, some p) := by
  simp only [decryptBody, (keyLengthOk_iff s).2 hkey, (decryptFits_iff s).2 hfits, hf, Bool.not_true,
    Bool.false_eq_true, if_false]
  cases decryptFrame (keyOperand s) f <;> rfl

theorem decryptBody_of_short {s : State} {f : Bytes} (hkey : s.keyLen = 32) (hfits : s.inLen.toNat ≤ s.cfg.bufSize)
    (hf : b64dec (inputOperand s) = some f) (h : f.length < 44) : decryptBody s = (.malformedBlob, none) := by
  rw [decryptBody_of_text hkey hfits hf, if_pos h]

theorem decryptBody_of_frame {s : State} {f : Bytes} (hkey : s.keyLen = 32) (hfits : s.inLen.toNat ≤ s.cfg.bufSize)
    (hf : b64dec (inputOperand s) = some f) (h : 44 ≤ f.length) :
    decryptBody s
      = (decryptFrame (keyOperand s) f).elim (.authenticationFailed, none) fun p => (.ok, some p) := by
  rw [decryptBody_of_text hkey hfits hf, if_neg (Nat.not_lt.2 h)]

/-- DECRYPT never waits (42_trng.md R158). -/
theorem exec_decrypt_finish {s : State} {r : ErrCode × Option Bytes} (h : decryptBody s = r) :
    exec .decrypt s = .next (finish r.1 r.2 s) := by
  subst h; rfl

theorem exec_wipe (s : State) :
    exec .wipe s
      = .next { s with
          keyBuf := [], keyLen := 0, inBuf := [], inLen := 0, scratch := [], trng := none, cmdLatch := 0,
          err := 0, done := true, fsm := .idle } := rfl

/-- The encoder writes characters of the alphabet and '=' (41_base64.md R141). -/
theorem mem_b64enc {b : Bytes} {c : Byte} (h : c ∈ b64enc b) : c = padChar ∨ inAlphabet c = true := by
  induction b using b64enc.induct with
  | case1 => cases h
  | case2 x =>
    simp only [b64enc, b64chars, List.mem_cons, List.not_mem_nil, or_false] at h
    rcases h with rfl | rfl | rfl | rfl <;> simp
  | case3 x y =>
    simp only [b64enc, b64chars, List.mem_cons, List.not_mem_nil, or_false] at h
    rcases h with rfl | rfl | rfl | rfl <;> simp
  | case4 x y z rest ih =>
    simp only [b64enc, b64chars, List.mem_cons] at h
    rcases h with rfl | rfl | rfl | rfl | h
    iterate 4 simp
    exact ih h

/-- A text of fewer than 44 bytes fits every legal buffer: `b64len(43) = 60` (43_commands.md R178). -/
theorem inLen_le_of_short {s : State} {f : Bytes} (hc : s.cfg.Legal) (hf : b64dec (inputOperand s) = some f)
    (h : f.length < 44) : s.inLen.toNat ≤ s.cfg.bufSize := by
  obtain ⟨-, hmin, -⟩ := hc
  have hlen : b64len f.length = s.inLen.toNat := by
    rw [← b64enc_length, (b64dec_eq_some_iff _ _).1 hf, inputOperand_length]
  rw [b64len] at hlen
  omega

/-- ENCRYPT publishes its text, and OUT_LEN is the text's length (43_commands.md R167). -/
theorem exec_encrypt_of_ok {s : State} {d : Vector Byte 28} (hkey : s.keyLen = 32)
    (hfits : b64len (s.inLen.toNat + 44) ≤ s.cfg.bufSize) (h : s.trng = some (.ok d)) :
    exec .encrypt s = .next (finish .ok (some (encryptText (keyOperand s) d (inputOperand s))) s) :=
  exec_encrypt_finish (encryptBody_of_ok hkey hfits h)

/-- DECRYPT of ENCRYPT's text, under the same key (43_commands.md R174). -/
theorem exec_decrypt_of_encryptText {s : State} {d : Vector Byte 28} {p : Bytes} (hkey : s.keyLen = 32)
    (hfits : s.inLen.toNat ≤ s.cfg.bufSize) (h : inputOperand s = encryptText (keyOperand s) d p) :
    exec .decrypt s = .next (finish .ok (some p) s) := by
  have hbody := decryptBody_of_frame hkey hfits ((b64dec_eq_some_iff _ _).2 h.symm) (by simp [gcmAE])
  rw [decryptFrame_buildFrame _ _ (drawSalt_length d) (drawIv_length d)] at hbody
  exact exec_decrypt_finish hbody

end Sys2Proof.Machine

namespace Sys2Proof.Proofs

open Machine

/-- Settles O17: the published text is the input of the DECRYPT, its frame opens, and the plaintext is published. -/
theorem decryptOfEncryptIsThePlaintext : Obligations.DecryptOfEncryptIsThePlaintext := by
  unfold Obligations.DecryptOfEncryptIsThePlaintext
  intro s d hc hkey hfits htrng
  refine ⟨_, exec_encrypt_of_ok hkey hfits htrng, rfl, fun s' hcfg hkey' hk hin hop => ?_⟩
  have hlen : (encryptText (keyOperand s) d (inputOperand s)).length ≤ s.cfg.bufSize := by
    rwa [encryptText_length, inputOperand_length]
  have htext : inputOperand s' = encryptText (keyOperand s') d (inputOperand s) := by
    rw [hop, finish_outLen_toNat hc hlen, hk]
    exact memory_slice_writeBytes _ _ _
  have hfits' : s'.inLen.toNat ≤ s'.cfg.bufSize := by rwa [hin, finish_outLen_toNat hc hlen, hcfg]
  refine ⟨_, exec_decrypt_of_encryptText hkey' hfits' htext, rfl, ?_, ?_⟩
  · rw [finish_outLen, publish_ok_some_outLen, inputOperand_length, BitVec.ofNat_toNat, BitVec.setWidth_eq]
  · rw [← inputOperand_length s]
    exact memory_slice_writeBytes _ _ _

/-- Settles O6: the state by the two cases of `publish`, the output by its bytes. -/
theorem finishPublishesAndWipes : Obligations.FinishPublishesAndWipes := by
  unfold Obligations.FinishPublishesAndWipes
  intro code out s
  refine ⟨finish_eq_withOut code out s, finish_out_eq s, ?_⟩
  rintro bs rfl rfl
  exact ⟨rfl, memory_read_finish bs s⟩

/-- Settles O8: a command that waits changes nothing, and one that completes does so by `finish`, with an output that
fits. -/
theorem commandFrame : Obligations.CommandFrame := by
  unfold Obligations.CommandFrame
  intro i s t h
  obtain rfl | ⟨code, out, rfl, hlen⟩ := exec_output_le h
  · exact ⟨rfl, rfl, rfl, rfl, rfl, rfl, rfl, rfl, fun _ => ⟨rfl, rfl⟩, fun _ _ _ => rfl⟩
  refine ⟨finish_cfg .., finish_ie .., finish_accErr .., finish_inReset .., finish_draws .., finish_prog ..,
    finish_sched .., finish_resp .., ?_, fun hc a ha => memory_read_finish_beyond hc hlen ha⟩
  rintro (rfl | ⟨w, rfl⟩ | he)
  · rw [← Host.Outcome.next.inj h]; exact finish_out_eq s (.inr rfl)
  · rw [← Host.Outcome.next.inj h]; exact finish_out_eq s (.inr rfl)
  · exact finish_out_eq s (.inl ((errNumber_ne_zero_iff code).1 he))

/-- Settles O14: such a text passes the length check, and the frame's length is the next one. -/
theorem shortFrameIsMalformed : Obligations.ShortFrameIsMalformed := by
  unfold Obligations.ShortFrameIsMalformed
  intro s f hc hkey hf hshort
  rw [exec_decrypt_finish (decryptBody_of_short hkey (inLen_le_of_short hc hf hshort) hf hshort)]
  rfl

/-- Settles O15: OUT was empty since the acceptance, and no error code publishes. -/
theorem noPlaintextOnFailure : Obligations.NoPlaintextOnFailure := by
  unfold Obligations.NoPlaintextOnFailure
  intro i s t hbusy hf h he
  obtain ⟨-, herr, hlen, hbuf⟩ := hbusy hf
  have hout : t.outBuf = [] ∧ t.outLen = 0 := by
    obtain ⟨-, -, rfl⟩ | ⟨code, out, rfl⟩ := exec_cases h
    · exact absurd herr he
    · obtain ⟨hb, hl⟩ := finish_out_eq (out := out) s (.inl ((errNumber_ne_zero_iff code).1 he))
      exact ⟨hb.trans hbuf, hl.trans hlen⟩
  obtain ⟨hbuf', hlen'⟩ := hout
  exact ⟨hbuf', hlen', fun a => by rw [hbuf', memory_read_nil], hlen',
    fun off => hostRead_from_outWindow_of_empty hlen' hbuf'⟩

/-- Settles O16: OUT_BUF holds the encoder's text, whose length the capacity check bounds. -/
theorem encryptOutLenIsTheTextLength : Obligations.EncryptOutLenIsTheTextLength := by
  unfold Obligations.EncryptOutLenIsTheTextLength
  intro s d hc hkey hfits htrng
  have htext : (encryptText (keyOperand s) d (inputOperand s)).length = b64len (s.inLen.toNat + 44) := by
    rw [encryptText_length, inputOperand_length]
  have hout := finish_outLen_toNat hc (htext.trans_le hfits)
  refine ⟨_, exec_encrypt_of_ok hkey hfits htrng, rfl, ?_⟩
  rw [hout]
  refine ⟨htext, by rw [htext, b64len]; omega, by rw [htext, b64len]; omega, fun a ha => ?_⟩
  rw [memory_read_finish, if_pos ha, List.getD_eq_getElem _ _ ha]
  exact mem_b64enc (List.getElem_mem ha)

/-- Settles O18: the two bodies are the same, and so is what they publish. -/
theorem saltIsNotRead : Obligations.SaltIsNotRead := by
  unfold Obligations.SaltIsNotRead
  intro s s' f f' hkey hkey' hfits hfits' hk hbuf hlen hf hf' hflen hdrop
  have hbody : decryptBody s' = decryptBody s := by
    by_cases h44 : f.length < 44
    · rw [decryptBody_of_short hkey hfits hf h44, decryptBody_of_short hkey' hfits' hf' (hflen ▸ h44)]
    · have hge : 44 ≤ f.length := Nat.le_of_not_lt h44
      rw [decryptBody_of_frame hkey hfits hf hge, decryptBody_of_frame hkey' hfits' hf' (hflen ▸ hge), hk,
        decryptFrame_of_drop_salt _ hflen hdrop hge]
  obtain ⟨hbuf', hlen'⟩ := finish_out_congr (decryptBody s).1 (decryptBody s).2 hbuf hlen
  exact ⟨_, _, exec_decrypt_finish rfl, exec_decrypt_finish hbody, rfl, hlen', hbuf'⟩

/-- Settles O19: the frame is split as it was built, and its tag is not the computed one. -/
theorem changedTagIsDetected : Obligations.ChangedTagIsDetected := by
  unfold Obligations.ChangedTagIsDetected
  intro s salt iv c t hkey hfits hsalt hiv ht hne htext
  have hbody := decryptBody_of_frame (f := buildFrame salt iv c t) hkey hfits ((b64dec_eq_some_iff _ _).2 htext.symm)
    (by simp; omega)
  rw [decryptFrame_buildFrame_of_ne_tag _ _ hsalt hiv ht hne] at hbody
  rw [exec_decrypt_finish hbody]
  rfl

/-- Settles O5: the write reaches CMD, which is not guarded while IDLE. -/
theorem cmdWriteAcceptsACommand : Obligations.CmdWriteAcceptsACommand := by
  unfold Obligations.CmdWriteAcceptsACommand
  exact fun v _ hf hr => writeAt_cmd v hf hr

/-- Settles O12: acceptance wipes OUT, and the completion, which has no output, the rest. -/
theorem wipeAndIllegalEraseEverything : Obligations.WipeAndIllegalEraseEverything := by
  unfold Obligations.WipeAndIllegalEraseEverything
  intro w s
  refine ⟨rfl, fun hf hr => ?_, exec_wipe s, exec_illegal w s⟩
  rw [writeAt_cmd _ hf hr, writeAt_cmd _ hf hr, exec_wipe, exec_illegal]
  exact ⟨rfl, rfl⟩

/-- Settles O13: the key's length is the first check of both commands. -/
theorem wrongKeyLengthIsRejected : Obligations.WrongKeyLengthIsRejected := by
  unfold Obligations.WrongKeyLengthIsRejected
  intro i s hi hkey
  refine ⟨by simp [wantsDraw, keyLengthOk_eq_false hkey], ?_⟩
  obtain rfl | rfl := hi
  · rw [exec_encrypt_finish (encryptBody_of_keyLen hkey)]
    rfl
  · rw [exec_decrypt_finish (decryptBody_of_keyLen hkey)]
    rfl

end Sys2Proof.Proofs

/-! SUPPORT. Every turn answers a next state, the failing checks of ENCRYPT and DECRYPT in their order, and what
a write in front of a completion changes of it (60_exceptions.md R183, R184, R187, R192). -/

namespace Sys2Proof.Machine

/-- The engine's turn is a completion or nothing, and no other turn can stop (R187; log 12). -/
theorem runTurn_isNext (turn : Turn) (s : State) : ∃ t, runTurn turn s = .next t := by
  cases turn with
  | engine =>
    simp only [runTurn]
    split
    · exact exec_isNext _ s
    · exact ⟨_, rfl⟩
  | host => exact ⟨_, rfl⟩
  | source a => exact ⟨_, rfl⟩
  | scratch a v => exact ⟨_, rfl⟩
  | reset => exact ⟨_, rfl⟩
  | holdReset => exact ⟨_, rfl⟩
  | releaseReset => exact ⟨_, rfl⟩

/-- A draw is wanted only past the first two checks of ENCRYPT (42_trng.md R158). -/
theorem wantsDraw_eq_false {s : State} (h : keyLengthOk s = false ∨ encryptFits s = false) : wantsDraw s = false := by
  obtain h | h := h
  · simp [wantsDraw, h]
  · simp [wantsDraw, h]

theorem encryptFits_eq_false {s : State} (h : s.cfg.bufSize < b64len (s.inLen.toNat + 44)) :
    encryptFits s = false := by
  rw [Bool.eq_false_iff, ne_eq, encryptFits_iff]; exact Nat.not_le.2 h

/-- The capacity is ENCRYPT's second check (R183). -/
theorem encryptBody_of_tooLong {s : State} (hkey : s.keyLen = 32)
    (h : s.cfg.bufSize < b64len (s.inLen.toNat + 44)) : encryptBody s = some (.lengthExceeded, none) := by
  simp [encryptBody, (keyLengthOk_iff s).2 hkey, encryptFits_eq_false h]

/-- The capacity is DECRYPT's second check (R184). -/
theorem decryptBody_of_tooLong {s : State} (hkey : s.keyLen = 32) (h : s.cfg.bufSize < s.inLen.toNat) :
    decryptBody s = (.lengthExceeded, none) := by
  have hfits : decryptFits s = false := by
    rw [Bool.eq_false_iff, ne_eq, decryptFits_iff]; exact Nat.not_le.2 h
  simp [decryptBody, (keyLengthOk_iff s).2 hkey, hfits]

/-- A text that base64 does not decode is DECRYPT's third check (R184). -/
theorem decryptBody_of_invalid {s : State} (hkey : s.keyLen = 32) (hfits : s.inLen.toNat ≤ s.cfg.bufSize)
    (h : b64dec (inputOperand s) = none) : decryptBody s = (.malformedBlob, none) := by
  simp [decryptBody, (keyLengthOk_iff s).2 hkey, (decryptFits_iff s).2 hfits, h]

/-- GCM_AD opens the ciphertext when the tag is the computed one (40_aes_gcm.md R120). -/
theorem gcmAD_of_tag {k iv c t : Bytes} (h : gcmTag k iv c = t) :
    gcmAD k iv c t = some (gctr k (inc32 (preCounter iv)) c) := if_pos h

/-- A STATUS write, bit by bit (10_state.md R29). -/
theorem acknowledge_eq_ite (v : Word) (s : State) :
    acknowledge v s
      = { s with
          done := if v.getLsbD 1 then false else s.done
          accErr := if v.getLsbD 2 then false else s.accErr } := by
  rw [acknowledge]
  cases v.getLsbD 1 <;> cases v.getLsbD 2 <;> simp

/-- A guarded write while BUSY is ignored and sets ACCERR (20_memory.md R64; log 13). -/
theorem writeAt_guarded {s : State} {off : Nat} (v : Word) (hf : s.fsm = .busy) (hr : s.inReset = false)
    (h4 : off % 4 = 0) (hg : guarded off = true) :
    writeAt off v s = { s with accErr := true, resp := .written } := by
  have hlt : off < 0x30000 := by have := (guarded_iff off).1 hg; omega
  rw [writeAt_eq v hr h4 hlt, hostWrite_guarded v hg hf]

/-- The IN window holds no byte beyond BUF_SIZE (10_state.md R39). -/
theorem writeAt_inWindow_beyond {s : State} {o : Nat} (v : Word) (hf : s.fsm = .idle) (hr : s.inReset = false)
    (h4 : o % 4 = 0) (ho : o < 0x10000) (hb : s.cfg.bufSize ≤ o) :
    writeAt (0x10000 + o) v s = { s with resp := .written } := by
  rw [writeAt_eq v hr (by omega) (by omega), hostWrite_inWindow v hf ho, if_neg (Nat.not_lt.2 hb)]

/-- A completion sets DONE whatever it was, and hands ACCERR and the response on (43_commands.md R166). -/
theorem finish_withFlags (code : ErrCode) (out : Option Bytes) (s : State) (d e : Bool) (r : Response) :
    finish code out { s with done := d, accErr := e, resp := r }
      = { finish code out s with accErr := e, resp := r } := by
  unfold finish publish
  split <;> rfl

/-- No body reads a flag or the response, so a command that completes does so with the same code and result under
other flags (60_exceptions.md R192). -/
theorem exec_withFlags {i : Instr} {s t : State} (h : exec i s = .next t) (hne : t ≠ s) (d e : Bool) (r : Response) :
    exec i { s with done := d, accErr := e, resp := r } = .next { t with accErr := e, resp := r } := by
  cases i with
  | encrypt =>
    have hbody : encryptBody { s with done := d, accErr := e, resp := r } = encryptBody s := rfl
    cases hs : encryptBody s with
    | none => exact absurd (Host.Outcome.next.inj (h.symm.trans (exec_encrypt_waits hs))) hne
    | some x =>
      obtain rfl := Host.Outcome.next.inj (h.symm.trans (exec_encrypt_finish hs))
      rw [exec_encrypt_finish (hbody.trans hs), finish_withFlags]
  | decrypt =>
    have hbody : decryptBody { s with done := d, accErr := e, resp := r } = decryptBody s := rfl
    cases h
    rw [exec_decrypt_finish hbody, finish_withFlags]
  | wipe => cases h; exact congrArg _ (finish_withFlags ..)
  | illegal w => cases h; exact congrArg _ (finish_withFlags ..)

end Sys2Proof.Machine

namespace Sys2Proof.Proofs

open Machine

/-- Settles O44: the turn of the step answers a next state, whichever it is. -/
theorem stepAlwaysAnswersNext : Obligations.StepAlwaysAnswersNext := by
  unfold Obligations.StepAlwaysAnswersNext
  exact fun s => runTurn_isNext (nextTurn s) (beginStep s)

/-- Settles O9, check by check. -/
theorem encryptResult : Obligations.EncryptResult := by
  unfold Obligations.EncryptResult
  intro s
  refine ⟨⟨rfl, rfl, rfl, fun _ => rfl⟩, fun hkey => ⟨?_, ?_⟩, fun hkey hlong => ⟨?_, ?_⟩,
    fun hkey hfits => ⟨fun htrng => ?_, fun d htrng => exec_encrypt_of_ok hkey hfits htrng⟩,
    fun hkey hfits htrng => ?_⟩
  · exact wantsDraw_eq_false (.inl (keyLengthOk_eq_false hkey))
  · exact exec_encrypt_finish (encryptBody_of_keyLen hkey)
  · exact wantsDraw_eq_false (.inr (encryptFits_eq_false hlong))
  · exact exec_encrypt_finish (encryptBody_of_tooLong hkey hlong)
  · exact exec_encrypt_finish
      (encryptBody_of_fail ((keyLengthOk_iff s).2 hkey) ((encryptFits_iff s).2 hfits) htrng)
  · exact exec_encrypt_waits
      ((encryptBody_none_iff s).2 ⟨(keyLengthOk_iff s).2 hkey, (encryptFits_iff s).2 hfits, htrng⟩)

/-- Settles O11, check by check; the last is the tag's. -/
theorem decryptResult : Obligations.DecryptResult := by
  unfold Obligations.DecryptResult
  intro s
  refine ⟨⟨rfl, rfl, rfl, rfl, fun _ => rfl⟩, fun hkey => exec_decrypt_finish (decryptBody_of_keyLen hkey),
    fun hkey hlong => exec_decrypt_finish (decryptBody_of_tooLong hkey hlong),
    fun hkey hfits => ⟨fun hbad => exec_decrypt_finish (decryptBody_of_invalid hkey hfits hbad), fun f hf =>
      ⟨fun hshort => exec_decrypt_finish (decryptBody_of_short hkey hfits hf hshort), fun h44 => ?_⟩⟩⟩
  have hbody := decryptBody_of_frame hkey hfits hf h44
  refine ⟨fun htag => ?_, fun htag => ?_⟩
  · have hframe : decryptFrame (keyOperand s) f = none := (gcmAD_eq_none_iff ..).2 htag.symm
    rw [hframe] at hbody
    exact exec_decrypt_finish hbody
  · have hframe : decryptFrame (keyOperand s) f = some _ := gcmAD_of_tag htag
    rw [hframe] at hbody
    exact exec_decrypt_finish hbody

/-- Settles O56: a write before the completion changes flags alone, which no body reads, and one after it meets an
IDLE block with DONE set. -/
theorem racesHaveBothOrders : Obligations.RacesHaveBothOrders := by
  unfold Obligations.RacesHaveBothOrders
  intro s t i hf hr h hidle
  have hne : t ≠ s := by rintro rfl; exact nomatch hf.symm.trans hidle
  have ⟨hdone, hacc, hr'⟩ : t.done = true ∧ t.accErr = s.accErr ∧ t.inReset = false := by
    obtain ⟨-, -, rfl⟩ | ⟨code, out, rfl⟩ := exec_cases h
    · exact absurd rfl hne
    · exact ⟨finish_done .., finish_accErr .., (finish_inReset ..).trans hr⟩
  refine ⟨hdone, fun v => ⟨?_, ?_⟩, fun off w h4 hoff => ⟨?_, ?cmd, ?keyLen, ?inLen, ?keyWindow, ?inWindow, ?beyond⟩⟩
  · rw [writeAt_status v hr, acknowledge_eq_ite, hacc]
    exact exec_withFlags h hne _ _ _
  · rw [writeAt_status v hr', acknowledge_eq_ite, hdone]
  · rw [writeAt_guarded w hf hr h4 ((guarded_iff off).2 hoff)]
    exact exec_withFlags h hne s.done true .written
  case cmd => rintro rfl; exact writeAt_cmd w hidle hr'
  case keyLen => rintro rfl; exact writeAt_keyLen w hidle hr'
  case inLen => rintro rfl; exact writeAt_inLen w hidle hr'
  case keyWindow =>
    intro hlo hhi
    obtain ⟨o, rfl⟩ := Nat.exists_eq_add_of_le hlo
    rw [Nat.add_sub_cancel_left]
    exact writeAt_keyWindow w hidle hr' (by omega) (by omega)
  case inWindow =>
    intro hlo hb
    obtain ⟨o, rfl⟩ := Nat.exists_eq_add_of_le hlo
    rw [Nat.add_sub_cancel_left] at hb ⊢
    exact writeAt_inWindow w hidle hr' (by omega) (by omega) hb
  case beyond =>
    intro hlo hb
    obtain ⟨o, rfl⟩ := Nat.exists_eq_add_of_le hlo
    rw [Nat.add_sub_cancel_left] at hb
    exact writeAt_inWindow_beyond w hidle hr' (by omega) (by omega) hb

end Sys2Proof.Proofs
